-- ==== Sys2Proof/Word.lean ====
section
/-! DEFINITION. The byte, the one data unit of the block (20_memory.md R53: "Every field of the format is one byte"). -/

namespace Sys2Proof

/-- A byte: an unsigned value in 0..255, bit 7 the most significant (00_scope.md R8). -/
abbrev Byte := BitVec 8

end Sys2Proof
end

