-- ==== Sys2Proof/Config.lean ====
section
/-! DEFINITION. The format's constants (00_scope.md R6), the implementation parameters (R7) and the free values:
what the spec leaves "unspecified" (93_implementation_defined.md, treatment "any value"). -/

namespace Sys2Proof.Config

/-- `WINDOW` (R6): how far back a back-reference reaches. -/
abbrev window : Nat := 256

/-- `LIT_MAX` (R6): the longest literal run a header encodes. -/
abbrev litMax : Nat := 127

/-- `MATCH_MIN` (R6): the shortest match a header encodes. -/
abbrev matchMin : Nat := 2

/-- `MATCH_MAX` (R6): the longest match a header encodes. -/
abbrev matchMax : Nat := 129

/-- `TERMINATOR` (R6). -/
abbrev terminator : Byte := 0x00#8

/-- The longest token in bytes: a LIT header and `LIT_MAX` payload bytes (R73). -/
abbrev maxTokenBytes : Nat := 128

/-- The implementation parameters of 00_scope.md R7. "A model takes each as an argument": they are a field of
State that no step changes, so every statement over all states holds for all parameters (log entry 1). -/
structure Params where
  /-- `MATCH_LIMIT`: exclusive bound on the length the Match Finder reports. -/
  matchLimit : Nat
  /-- `ACCEPT_MIN_OPEN`: least length accepted while a literal run is open. -/
  acceptMinOpen : Nat
  /-- `ACCEPT_MIN_CLOSED`: least length accepted while no literal run is open. -/
  acceptMinClosed : Nat
  /-- `IN_CAP`: bytes of memory IN. -/
  inCap : Nat
  /-- `OUT_CAP`: bytes of memory OUT. -/
  outCap : Nat
  /-- `CURSOR_BITS`: width of every cursor and length register. -/
  cursorBits : Nat
  deriving DecidableEq, Repr

/-- The parameter values the spec's rules allow: `CURSOR_BITS` holds both capacities (R7), every acceptance
threshold is at least 2 (41_encoder.md R122), `F.lim` is at least 1 (40_match_finder.md R101), and the longest
length `MATCH_LIMIT - 1` is one a header encodes, at most `MATCH_MAX` (R6). DEDUCED, log entry 3. -/
abbrev Params.wf (p : Params) : Prop :=
  1 ≤ p.matchLimit ∧ p.matchLimit ≤ matchMax + 1 ∧
  2 ≤ p.acceptMinOpen ∧ 2 ≤ p.acceptMinClosed ∧
  p.inCap < 2 ^ p.cursorBits ∧ p.outCap < 2 ^ p.cursorBits

/-- The parameters `State.reset` carries: R7's defaults, and for the three that R7 gives no default a
DESIGN CHOICE (log entry 2). -/
def defaultParams : Params where
  matchLimit := 129
  acceptMinOpen := 4
  acceptMinClosed := 2
  inCap := 2 ^ 32
  outCap := 2 ^ 32
  cursorBits := 33

/-- Free value: the `slot`-th number left unspecified by the `k`-th event that leaves one (log entry 5). No body:
nothing can be proved of it. -/
opaque freeNat (k slot : Nat) : Nat

/-- Free value: the placeholder byte of the `k`-th such event (41_encoder.md R126, decision D8; log entry 5). -/
opaque freeByte (k : Nat) : Byte

/-- Free value: what `IN[a]` holds while nothing has written it since the event `epoch` that left IN
unspecified (70_reset_and_hazards.md R201; log entry 6). -/
opaque unwrittenIn (epoch a : Nat) : Byte

/-- Free value: what `OUT[a]` holds while nothing has written it since the event `epoch` that left OUT
unspecified (20_memory.md R59, 70_reset_and_hazards.md R201; log entry 6). -/
opaque unwrittenOut (epoch a : Nat) : Byte

end Sys2Proof.Config
end

