-- ==== Sys2Proof/Syntax.lean ====
section
/-! DEFINITION. The instructions: one constructor for each row of spec/opcode_table.json. The token rows (END, LIT,
MATCH) are what the Decoder interprets (30_encoding.md R71), the command rows (ENCODE, DECODE) are what the host
writes to `CMD` (R80). -/

namespace Sys2Proof

/-- An instruction of the block. -/
inductive Instr where
  /-- `END`, format T-END: header `00`. -/
  | tokEnd
  /-- `LIT b1, ..., bL`, format T-LIT: header `0LLLLLLL`, then the `L` payload bytes. -/
  | tokLit (payload : List Byte)
  /-- `MATCH`, format T-MATCH: header `1MMMMMMM` with the field `M`, then the distance byte `D`. -/
  | tokMatch (m : BitVec 7) (d : Byte)
  /-- `ENCODE`, the command `CMD = 0x00`. -/
  | cmdEncode
  /-- `DECODE`, the command `CMD = 0x01`. -/
  | cmdDecode
  deriving DecidableEq, Repr

end Sys2Proof
end

