-- ==== Sys2Proof/WellFormed.lean ====
section
/-! DEFINITION. Which terms of `Instr` have an encoding. -/

namespace Sys2Proof

/-- The operand check: a LIT has 1 to `LIT_MAX` payload bytes, since "a literal-run header of length 0 must never
be emitted" and `L` has 7 bits (30_encoding.md R71, R74, R77). The fields of the other rows have exactly the
values their types have. -/
def Instr.wellFormed : Instr → Bool
  | .tokEnd => true
  | .tokLit payload => decide (1 ≤ payload.length) && decide (payload.length ≤ Config.litMax)
  | .tokMatch _ _ => true
  | .cmdEncode => true
  | .cmdDecode => true

/-- The instruction is a token: it stands in a stream (opcode_table.json, "space": token stream). -/
def Instr.isToken : Instr → Bool
  | .tokEnd => true
  | .tokLit _ => true
  | .tokMatch _ _ => true
  | .cmdEncode => false
  | .cmdDecode => false

end Sys2Proof
end

