-- ==== Sys2Proof/Decode.lean ====
section
/-! DEFINITION. The decoder of tokens and of commands, total on any bytes and rejecting by name, and the encoder
(30_encoding.md R70 to R80). -/

namespace Sys2Proof

/-- Why bytes decode to no instruction. The first three are the malformed streams of 30_encoding.md R78, in the
priority of 60_exceptions.md R185. -/
inductive Reject where
  /-- No header byte is left: the stream ends without END. -/
  | missingTerminator
  /-- The payload of a LIT runs past the last byte. -/
  | truncatedLiteral
  /-- The distance byte of a MATCH is missing. -/
  | truncatedMatch
  /-- A `CMD` value with a reserved bit set (R80). -/
  | reservedCommand
  deriving DecidableEq, Repr

/-- What the decoder answers: an instruction and the bytes after it, or the reason there is none. -/
inductive Decoded where
  | instr (i : Instr) (rest : List Byte)
  | rejected (why : Reject)
  deriving DecidableEq, Repr

/-- The field `header[6:0]` (R71): `L` of a LIT, `M` of a MATCH. -/
def headerField (h : Byte) : BitVec 7 := h.extractLsb' 0 7

/-- The condition the Decoder tests on data, bit 7 of the header (10_state.md R40, 30_encoding.md R72). -/
def headerBit7 (h : Byte) : Bool := h.getLsbD 7

/-- The token at the head of `bytes`: END is tested before bit 7 (R72), the operands are assembled as R74 and R75
say. -/
def decodeToken (bytes : List Byte) : Decoded :=
  match bytes with
  | [] => .rejected .missingTerminator
  | h :: rest =>
    if h = Config.terminator then .instr .tokEnd rest
    else if headerBit7 h then
      match rest with
      | [] => .rejected .truncatedMatch
      | d :: rest => .instr (.tokMatch (headerField h) d) rest
    else
      let count := (headerField h).toNat
      if rest.length < count then .rejected .truncatedLiteral
      else .instr (.tokLit (rest.take count)) (rest.drop count)

/-- The command a `CMD` value stands for (R80); "Every other `CMD` value (0x02..0xFF) has a reserved bit set". -/
def decodeCommand (v : Byte) : Decoded :=
  if v = 0x00#8 then .instr .cmdEncode []
  else if v = 0x01#8 then .instr .cmdDecode []
  else .rejected .reservedCommand

/-- The length in bytes of the token a header begins, "known from its header byte alone" (R73). -/
def tokenLength (h : Byte) : Nat :=
  if h = Config.terminator then 1
  else if headerBit7 h then 2
  else 1 + (headerField h).toNat

/-- The header byte of a LIT of `count` bytes: `0LLLLLLL` (R71). -/
def litHeader (count : Nat) : Byte := BitVec.ofNat 8 count

/-- The header byte of a MATCH: `1MMMMMMM` (R71). -/
def matchHeader (m : BitVec 7) : Byte := 0x80#8 ||| m.setWidth 8

/-- The bytes of an instruction (R71, R80). -/
def encode : Instr → List Byte
  | .tokEnd => [Config.terminator]
  | .tokLit payload => litHeader payload.length :: payload
  | .tokMatch m d => [matchHeader m, d]
  | .cmdEncode => [0x00#8]
  | .cmdDecode => [0x01#8]

/-- A whole stream (R70, `stream := token* END`): the tokens up to and with the first END, and the bytes after it
("Any bytes after that END are not part of the stream"). `fuel` bounds the number of tokens; one more than the
number of bytes is always enough. -/
def decodeStream : (fuel : Nat) → List Byte → Option (List Instr × List Byte)
  | 0, _ => none
  | fuel + 1, bytes =>
    match decodeToken bytes with
    | .rejected _ => none
    | .instr .tokEnd rest => some ([.tokEnd], rest)
    | .instr i rest =>
      match decodeStream fuel rest with
      | none => none
      | some (is, rest) => some (i :: is, rest)

/-- The bytes of an instruction whose bits are `w`, numbered as spec/opcode_table.json numbers them (bit 0 the least
significant of the first byte), followed by zero bytes up to the longest token. -/
def tableBytes (nbits w : Nat) : List Byte :=
  (List.range' 0 Config.maxTokenBytes).map fun k => BitVec.ofNat 8 ((w % 2 ^ nbits) >>> (8 * k))

/-- The instruction the token decoder reads from the bits `w` of an opcode-table row. The rows END and ENCODE have the
same 8 bits, and so have DECODE and a LIT of one byte: which row they are is decided by where they stand, in IN or
in `CMD`. A table word is read here as a token of the stream, as `State.withFetchWord` places it; the command rows
are read by `decodeCommand` (log entry 12). -/
def decodeTableWord (nbits w : Nat) : Option Instr :=
  match decodeToken (tableBytes nbits w) with
  | .instr i _ => some i
  | .rejected _ => none

end Sys2Proof
end

