-- ==== Sys2Proof/Machine/State.lean ====
section
/-! DEFINITION. The state of the block (10_state.md R20 to R41, 20_memory.md R50), the host's pending actions, the
reasons a step can stop, and the state after reset (70_reset_and_hazards.md R200 to R202). -/

namespace Sys2Proof.Machine

/-- The values of `STATUS.STATE` (R22). -/
inductive RunState where
  | idle
  | busy
  | done
  | error
  deriving DecidableEq, Repr

/-- The values of `STATUS.OP` and `CMD.OP` (R21, R22). -/
inductive Op where
  | encode
  | decode
  deriving DecidableEq, Repr

/-- The error causes of 60_exceptions.md R181; code 7 is reserved and "never reported". -/
inductive Cause where
  | none
  | missingTerminator
  | truncatedLiteral
  | truncatedMatch
  | offsetBeforeStart
  | outputOverflow
  | inputTooLong
  deriving DecidableEq, Repr

/-- One of the two memories, IN or OUT (20_memory.md R50): the bytes that have been written, by index. An index that is
not listed holds no known value: "a model treats each byte as any value" (70_reset_and_hazards.md R201). -/
abbrev Memory := List Host.Cell

/-- The canonical form: indices strictly rising. An unlisted index holds no known value, so no entry can equal what an
unlisted one holds, and equal contents are equal lists. -/
abbrev Memory.wf (m : Memory) : Prop := m.Pairwise fun a b => a.1 < b.1

/-- The host registers by name (10_state.md R20). -/
inductive HostReg where
  | cmd
  | status
  | inLen
  | outLen
  | errSrc
  | inCapR
  | outCapR
  deriving DecidableEq, Repr

/-- What the host can do to the block, one action at a time (10_state.md R20, 60_exceptions.md R187,
70_reset_and_hazards.md R201, R204). The pending actions are the model's own input (log entry 7). -/
inductive HostAction where
  /-- Write `v` to a register. -/
  | writeReg (r : HostReg) (v : Nat)
  /-- Read a register. -/
  | readReg (r : HostReg)
  /-- `IN[a] <- v`. -/
  | writeIn (a : Nat) (v : Byte)
  /-- Read `IN[a]`. -/
  | readIn (a : Nat)
  /-- `OUT[a] <- v`. -/
  | writeOut (a : Nat) (v : Byte)
  /-- Read `OUT[a]`. -/
  | readOut (a : Nat)
  /-- Do nothing for one step of the block. -/
  | pass
  /-- Read `STATUS` until `STATE != BUSY` (R204 steps 1 and 5). -/
  | waitWhileBusy
  /-- Reset the block (R200, R201). -/
  | reset
  deriving DecidableEq, Repr

/-- The Encoder's registers `E.*` (10_state.md R28 to R32). -/
structure Encoder where
  /-- `E.dst`, `CURSOR_BITS` wide: the index in IN of the next byte not yet encoded (R28). -/
  dst : Nat
  /-- `E.open`, 1 bit: a literal run is open (R29). -/
  isOpen : Bool
  /-- `E.runLen`, 7 bits: the open run's length (R30). -/
  runLen : Nat
  /-- `E.hdr`, `CURSOR_BITS` wide: the position reserved for the open run's header, `none` for ⊥ (R31). -/
  hdr : Option Nat
  /-- `E.olen`, `CURSOR_BITS` wide: the number of bytes appended to OUT (R32). -/
  olen : Nat
  deriving DecidableEq, Repr

/-- The Match Finder's registers `F.*` (10_state.md R33). -/
structure Finder where
  /-- `F.d`, `CURSOR_BITS` wide: the position searched for. -/
  d : Nat
  /-- `F.lim`, 8 bits: the exclusive bound on `F.num`. -/
  lim : Nat
  /-- `F.s`, `CURSOR_BITS` wide: the candidate under test. -/
  s : Nat
  /-- `F.num`, 8 bits: the match length of the candidate. -/
  num : Nat
  /-- `F.bestLen`, 8 bits: the best length so far. -/
  bestLen : Nat
  /-- `F.bestSrc`, `CURSOR_BITS` wide: the candidate that gave it, `none` for ⊥. -/
  bestSrc : Option Nat
  deriving DecidableEq, Repr

/-- The Decoder's registers `D.*` (10_state.md R35 to R37). -/
structure Decoder where
  /-- `D.src`, `CURSOR_BITS` wide: the read cursor and program counter (R35). -/
  src : Nat
  /-- `D.dst`, `CURSOR_BITS` wide: the write cursor (R36). -/
  dst : Nat
  /-- `D.off`, signed, `CURSOR_BITS + 1` wide: the back-reference read cursor (R36). -/
  off : Int
  /-- `D.cnt`, 8 bits: the bytes still to copy in the current token (R37). -/
  cnt : Nat
  deriving DecidableEq, Repr

/-- The whole state. `CMD` "holds no value" (R21) and so has no field; `IN_CAP_R` and `OUT_CAP_R` are "constants equal
to the parameters" (R26), `params.inCap` and `params.outCap`. -/
structure State where
  /-- The implementation parameters (00_scope.md R7), which no step changes. -/
  params : Config.Params
  /-- `STATUS`, register 1 (R22). -/
  status : Byte
  /-- `IN_LEN`, register 2 (R23). -/
  inLen : Nat
  /-- `OUT_LEN`, register 3 (R24). -/
  outLen : Nat
  /-- `ERR_SRC`, register 4 (R25). -/
  errSrc : Nat
  /-- The registers `E.*`. -/
  enc : Encoder
  /-- The registers `F.*`. -/
  fnd : Finder
  /-- The registers `D.*`. -/
  dec : Decoder
  /-- Memory IN (20_memory.md R50). -/
  inMem : Memory
  /-- Memory OUT (20_memory.md R50). -/
  outMem : Memory
  /-- The model's own: which event last left all of IN unspecified. -/
  inEpoch : Nat
  /-- The model's own: which event last left all of OUT unspecified. -/
  outEpoch : Nat
  /-- The model's own: the number of the next event that draws a free value; power-on was event 0. -/
  fresh : Nat
  /-- The model's own: the host's pending actions, oldest first. -/
  host : List HostAction
  /-- The model's own: what the host's last read returned, `none` before the first. -/
  readData : Option Nat
  deriving DecidableEq, Repr

/-- Why the machine stops with a fault. Each is safe: the model stops and nothing is claimed of what follows. -/
inductive Fault where
  /-- Raised by a host access to `IN[a]` with `a >= IN_CAP` or `OUT[a]` with `a >= OUT_CAP`: the memories have
  `IN_CAP` and `OUT_CAP` bytes (20_memory.md R50). Safe. -/
  | addressOutOfRange
  /-- Raised by an Encoder action that would read ⊥, "a register value that no rule may read" (00_scope.md R10). No
  state that satisfies the invariant `Inv` of Safety.lean reaches it. Safe. -/
  | bottomRead
  deriving DecidableEq, Repr

/-- Why the machine gives no next state. All but the first are host actions that "have no meaning": "A model refuses
them" (60_exceptions.md R187). Each is safe. -/
inductive Refusal where
  /-- Raised by `exec`'s arm of an instruction that has no meaning yet; no arm does. Safe. -/
  | notModelled (mnemonic : String)
  /-- Raised by a write of `CMD` while `STATE = BUSY` (R187, 10_state.md R21). Safe. -/
  | commandWhileBusy
  /-- Raised by a write of `CMD` with any of bits 7:1 set (R187, 10_state.md R21). Safe. -/
  | reservedCommandBits
  /-- Raised by a write of `STATUS`, `OUT_LEN`, `ERR_SRC`, `IN_CAP_R` or `OUT_CAP_R` (R187, 10_state.md R26). Safe. -/
  | readOnlyRegister
  /-- Raised by a write of `IN_LEN`, IN or OUT while `STATE = BUSY` (R187, 70_reset_and_hazards.md R205). Safe. -/
  | writeWhileBusy
  /-- Raised by a read of OUT while `STATE = BUSY` (R187, 70_reset_and_hazards.md R205). Safe. -/
  | readOutWhileBusy
  /-- Raised by a write of a value wider than the register: "A value written to a register of width `N` must lie in
  that register's stated range" (00_scope.md R9; log entry 8). Safe. -/
  | valueTooWide
  deriving DecidableEq, Repr

/-- The state right after reset with the parameters `p`: the host registers as 10_state.md R20 and R22 give them, both
memories with nothing listed. The spec leaves the agent registers "unspecified" (R200); the model's value for each
is 0, closed or ⊥ (DESIGN CHOICE, log entry 4). Power-on is event 0 of those that leave the memories unspecified, so the
next event is number 1 and draws other values (log entry 6). -/
def State.resetWith (p : Config.Params) : State where
  params := p
  status := 0x00#8
  inLen := 0
  outLen := 0
  errSrc := 0
  enc := { dst := 0, isOpen := false, runLen := 0, hdr := none, olen := 0 }
  fnd := { d := 0, lim := 0, s := 0, num := 0, bestLen := 0, bestSrc := none }
  dec := { src := 0, dst := 0, off := 0, cnt := 0 }
  inMem := []
  outMem := []
  inEpoch := 0
  outEpoch := 0
  fresh := 1
  host := []
  readData := none

/-- The machine right after reset. "After reset it does nothing until the host writes `CMD`" (R202). -/
def State.reset : State := State.resetWith Config.defaultParams

end Sys2Proof.Machine
end

