-- ==== Sys2Proof/Machine/Flags.lean ====
section
/-! DEFINITION. The fields of `STATUS` (10_state.md R22) and the two conditions of the block (R40). -/

namespace Sys2Proof.Machine

/-- The code of a `STATE` (R22). -/
def stateCode : RunState → Nat
  | .idle => 0
  | .busy => 1
  | .done => 2
  | .error => 3

/-- The code of an `OP` (R21, R22). -/
def opCode : Op → Nat
  | .encode => 0
  | .decode => 1

/-- The code of a cause (60_exceptions.md R181). -/
def causeCode : Cause → Nat
  | .none => 0
  | .missingTerminator => 1
  | .truncatedLiteral => 2
  | .truncatedMatch => 3
  | .offsetBeforeStart => 4
  | .outputOverflow => 5
  | .inputTooLong => 6

/-- `STATUS.STATE`, bits 1:0. -/
def statusState (w : Byte) : RunState :=
  match (w.extractLsb' 0 2).toNat with
  | 0 => .idle
  | 1 => .busy
  | 2 => .done
  | _ => .error

/-- `STATUS.OP`, bit 2. -/
def statusOp (w : Byte) : Op := if w.getLsbD 2 then .decode else .encode

/-- `STATUS.CAUSE`, bits 6:4, as its code. -/
def statusCause (w : Byte) : Nat := (w.extractLsb' 4 3).toNat

/-- `STATUS.STATE <- x`, the other bits kept. -/
def setStatusState (x : RunState) (w : Byte) : Byte := (w &&& 0xFC#8) ||| BitVec.ofNat 8 (stateCode x)

/-- `STATUS.OP <- x`, the other bits kept. -/
def setStatusOp (x : Op) (w : Byte) : Byte := (w &&& 0xFB#8) ||| BitVec.ofNat 8 (opCode x * 4)

/-- `STATUS.CAUSE <- c`, the other bits kept. -/
def setStatusCause (c : Cause) (w : Byte) : Byte := (w &&& 0x8F#8) ||| BitVec.ofNat 8 (causeCode c * 16)

/-- `STATUS.STATE = BUSY`. -/
def State.busy (s : State) : Bool := decide (statusState s.status = .busy)

/-- The Encoder is the agent that runs. -/
def State.encoding (s : State) : Bool := s.busy && decide (statusOp s.status = .encode)

/-- The Decoder is the agent that runs. -/
def State.decoding (s : State) : Bool := s.busy && decide (statusOp s.status = .decode)

/-- The acceptance threshold the flag `E.open` selects (41_encoder.md R122). -/
def acceptThreshold (p : Config.Params) (isOpen : Bool) : Nat :=
  if isOpen then p.acceptMinOpen else p.acceptMinClosed

/-- `Accept(L)`: "L >= thr" (41_encoder.md R122). -/
def accepts (p : Config.Params) (isOpen : Bool) (len : Nat) : Bool :=
  decide (acceptThreshold p isOpen ≤ len)

end Sys2Proof.Machine
end

