-- ==== Sys2Proof/Machine/Operands.lean ====
section
/-! DEFINITION. The operands of a token (30_encoding.md R74 to R76). -/

namespace Sys2Proof.Machine

/-- The length a MATCH copies, `len = zext_8(h[6:0]) + 2`, in 2..129 (R75). -/
def matchLength (m : BitVec 7) : Nat := m.toNat + Config.matchMin

/-- The field `M` of a MATCH of length `len` (R71, "match length minus 2"). -/
def matchField (len : Nat) : BitVec 7 := BitVec.ofNat 7 (len - Config.matchMin)

/-- Where a MATCH reads first, `off = dst - 256 + D`; negative when it would read before the output (R75). -/
def matchOffset (dst : Nat) (d : Byte) : Int := (dst : Int) - Config.window + d.toNat

/-- The backward distance `dist = 256 - D`, in 1..256 (R75). -/
def matchDistance (d : Byte) : Nat := Config.window - d.toNat

/-- The distance byte the Encoder writes, `(src - dst + 256) mod 256` (R76). -/
def distanceByte (src dst : Nat) : Byte := BitVec.ofInt 8 ((src : Int) - dst + Config.window)

end Sys2Proof.Machine
end

