-- ==== Sys2Proof/Machine/Ops.lean ====
section
/-! DEFINITION. The operations every instruction is written with: the bytes of IN and OUT (20_memory.md), the free
values, starting an operation (10_state.md R21, R23), taking an error (60_exceptions.md R184) and completing one. -/

namespace Sys2Proof.Machine

/-! ## Memory -/

/-- The byte listed at index `a`, if there is one. -/
def readCell : Memory → Nat → Option Byte
  | [], _ => none
  | (b, v) :: m, a => if b = a then some v else readCell m a

/-- Index `a` now holds `v`; the list stays in rising order. -/
def writeCell : Memory → Nat → Byte → Memory
  | [], a, v => [(a, v)]
  | (b, w) :: m, a, v =>
    if a < b then (a, v) :: (b, w) :: m
    else if a = b then (a, v) :: m
    else (b, w) :: writeCell m a v

/-- Write the bytes `bytes` at the indices from `a` on. -/
def writeCells : Memory → Nat → List Byte → Memory
  | m, _, [] => m
  | m, a, v :: bytes => writeCells (writeCell m a v) (a + 1) bytes

/-- `IN[a]` (00_scope.md R10). A byte that nothing has written is any value (70_reset_and_hazards.md R201), the same
at every read (20_memory.md R55). -/
def State.inByte (s : State) (a : Nat) : Byte := (readCell s.inMem a).getD (Config.unwrittenIn s.inEpoch a)

/-- `OUT[a]` (00_scope.md R10), as `State.inByte`. -/
def State.outByte (s : State) (a : Nat) : Byte := (readCell s.outMem a).getD (Config.unwrittenOut s.outEpoch a)

/-- `OUT[a] <- v` (00_scope.md R10). -/
def State.storeOut (a : Nat) (v : Byte) (s : State) : State := { s with outMem := writeCell s.outMem a v }

/-- `IN[a] <- v`, by the host only (20_memory.md R61: "The block never writes IN"). -/
def State.storeIn (a : Nat) (v : Byte) (s : State) : State := { s with inMem := writeCell s.inMem a v }

/-! ## Agent registers -/

/-- The Encoder's registers become `e`. -/
def State.setEnc (e : Encoder) (s : State) : State := { s with enc := e }

/-- The Match Finder's registers become `f`. -/
def State.setFnd (f : Finder) (s : State) : State := { s with fnd := f }

/-- The Decoder's registers become `d`. -/
def State.setDec (d : Decoder) (s : State) : State := { s with dec := d }

/-! ## Free values -/

/-- A free value of a register `CURSOR_BITS` wide. -/
def freeCursor (p : Config.Params) (k slot : Nat) : Nat := Config.freeNat k slot % 2 ^ p.cursorBits

/-- Free values of a register `CURSOR_BITS` wide that may hold ⊥. -/
def freeCursorOrBottom (p : Config.Params) (k slot : Nat) : Option Nat :=
  if Config.freeNat k slot % 2 = 0 then none else some (freeCursor p k (slot + 1))

/-- Free values of all of `E.*`, each within its width (10_state.md R28 to R32). -/
def freeEncoder (p : Config.Params) (k : Nat) : Encoder where
  dst := freeCursor p k 1
  isOpen := decide (Config.freeNat k 2 % 2 = 1)
  runLen := Config.freeNat k 3 % 2 ^ 7
  hdr := freeCursorOrBottom p k 4
  olen := freeCursor p k 6

/-- Free values of all of `F.*`, each within its width (10_state.md R33). -/
def freeFinder (p : Config.Params) (k : Nat) : Finder where
  d := freeCursor p k 7
  lim := Config.freeNat k 8 % 2 ^ 8
  s := freeCursor p k 9
  num := Config.freeNat k 10 % 2 ^ 8
  bestLen := Config.freeNat k 11 % 2 ^ 8
  bestSrc := freeCursorOrBottom p k 12

/-- Free values of all of `D.*`, each within its width (10_state.md R35 to R37). -/
def freeDecoder (p : Config.Params) (k : Nat) : Decoder where
  src := freeCursor p k 14
  dst := freeCursor p k 15
  off := ((Config.freeNat k 16 % 2 ^ (p.cursorBits + 1) : Nat) : Int) - 2 ^ p.cursorBits
  cnt := Config.freeNat k 17 % 2 ^ 8

/-- Every agent register becomes a free value. -/
def State.freeAgents (k : Nat) (s : State) : State :=
  { s with enc := freeEncoder s.params k, fnd := freeFinder s.params k, dec := freeDecoder s.params k }

/-- `OUT_LEN` and every byte of OUT become free values (20_memory.md R59, 10_state.md R24). -/
def State.freeOutput (k : Nat) (s : State) : State :=
  { s with outLen := freeCursor s.params k 0, outMem := [], outEpoch := k }

/-! ## Errors, start and completion of an operation -/

/-- `raise Error(cause, pos)`, THE one way an error is taken (60_exceptions.md R184): `ERR_SRC <- pos`,
`STATUS.CAUSE <- cause`, `STATUS.STATE <- ERROR`; `STATUS.OP` keeps its value. "`OUT_LEN` and every byte of OUT are
unspecified after an error", and "The agent registers keep unspecified values": free values. There is no return
from an error but a new command or a reset (R186). -/
def takeError (cause : Cause) (pos : Nat) (s : State) : State :=
  let t := (s.freeOutput s.fresh).freeAgents s.fresh
  { t with
    errSrc := pos
    status := setStatusState .error (setStatusCause cause s.status)
    fresh := s.fresh + 1 }

/-- A command starts the operation `op` (10_state.md R21): `STATE <- BUSY`, `OP <- op`, `CAUSE <- 0`. "From the start
of a command until DONE" `OUT_LEN` is unspecified (R24), and so is every byte of OUT that the operation does not
write (20_memory.md R59; log entry 9). -/
def startOperation (op : Op) (s : State) : State :=
  let t := s.freeOutput s.fresh
  { t with
    status := setStatusCause .none (setStatusOp op (setStatusState .busy s.status))
    fresh := s.fresh + 1 }

/-- An operation completes with `len` output bytes: `OUT_LEN <- len`, `STATUS.STATE <- DONE` (41_encoder.md R127,
42_decoder.md R152). -/
def completeOperation (len : Nat) (s : State) : State :=
  { s with outLen := len, status := setStatusState .done s.status }

/-! ## Actions that may raise an error -/

/-- What an action of the Encoder leads to. -/
inductive Flow where
  /-- The action is done and the next one follows. -/
  | go (s : State)
  /-- The action has raised an error: "the operation stops" (60_exceptions.md R184). -/
  | raised (s : State)
  /-- The action would read ⊥ (00_scope.md R10). -/
  | stuck (r : Fault)
  deriving DecidableEq, Repr

/-- Do `next` after an action that went on. -/
def Flow.andThen (x : Flow) (next : State → Flow) : Flow :=
  match x with
  | .go s => next s
  | .raised s => .raised s
  | .stuck r => .stuck r

/-- The outcome of the step that ends with the action. -/
def Flow.toOutcome : Flow → Host.Outcome State Fault Refusal
  | .go s => .next s
  | .raised s => .next s
  | .stuck r => .fault r

end Sys2Proof.Machine
end

