-- ==== Sys2Proof/Machine/Decoder.lean ====
section
/-! DEFINITION. The Decoder: the command DECODE and the tokens END, LIT and MATCH (42_decoder.md R151 to R155). A token
is one step of the machine (R160). -/

namespace Sys2Proof.Machine

/-- DECODE, as a command the host writes to `CMD` (10_state.md R21, R23; 42_decoder.md R151). It starts the operation:
`STATE <- BUSY`, `D.src <- 0` and `D.dst <- 0`, or INPUT_TOO_LONG at once when `IN_LEN > IN_CAP`. The loop of R151
then interprets one token a step. While BUSY a write of `CMD` is refused. -/
def execDecode (s : State) : Host.Outcome State Fault Refusal :=
  if s.busy then .refused .commandWhileBusy
  else
    let t := startOperation .decode s
    if t.params.inCap < t.inLen then .next (takeError .inputTooLong 0 t)
    else .next (t.setDec { t.dec with src := 0, dst := 0 })

/-- END (R152): `OUT_LEN <- D.dst`, `STATE <- DONE`; `D.src` stays at the terminator. -/
def execEnd (s : State) : Host.Outcome State Fault Refusal := .next (completeOperation s.dec.dst s)

/-- One pass of LIT's loop (R153): `OUT[D.dst] <- v`, `D.dst` up, `D.cnt` down. -/
def literalPass (v : Byte) (s : State) : State :=
  (s.storeOut s.dec.dst v).setDec { s.dec with dst := s.dec.dst + 1, cnt := s.dec.cnt - 1 }

/-- LIT's loop (R153), in increasing order. -/
def copyLiteral : List Byte → State → State
  | [], s => s
  | v :: payload, s => copyLiteral payload (literalPass v s)

/-- LIT (R153), with its payload `IN[D.src+1 .. D.src+L]` assembled by the decoder. The checks come before any byte is
written (60_exceptions.md R185); the first is also the decoder's own rejection, so a LIT that a step decodes from
`IN[0..n-1]` passes it. -/
def execLit (payload : List Byte) (s : State) : Host.Outcome State Fault Refusal :=
  if s.inLen ≤ s.dec.src + payload.length then .next (takeError .truncatedLiteral s.dec.src s)
  else if s.params.outCap < s.dec.dst + payload.length then .next (takeError .outputOverflow s.dec.src s)
  else
    let t := copyLiteral payload (s.setDec { s.dec with cnt := payload.length })
    .next (t.setDec { t.dec with src := t.dec.src + 1 + payload.length })

/-- One pass of MATCH's loop (R155): `OUT[D.dst] <- OUT[D.off]`, both cursors up, `D.cnt` down. -/
def matchPass (s : State) : State :=
  (s.storeOut s.dec.dst (s.outByte s.dec.off.toNat)).setDec
    { s.dec with dst := s.dec.dst + 1, off := s.dec.off + 1, cnt := s.dec.cnt - 1 }

/-- MATCH's loop (R155), one byte a pass in increasing order, each write complete before the next read (R206). -/
def copyMatch : (passes : Nat) → State → State
  | 0, s => s
  | passes + 1, s => copyMatch passes (matchPass s)

/-- MATCH (R155), with the field `M` and the distance byte `D = IN[D.src+1]`. The checks come before any byte is
written, in the order of 60_exceptions.md R185; the first is also the decoder's own rejection. -/
def execMatch (m : BitVec 7) (d : Byte) (s : State) : Host.Outcome State Fault Refusal :=
  if s.inLen ≤ s.dec.src + 1 then .next (takeError .truncatedMatch s.dec.src s)
  else
    let off := matchOffset s.dec.dst d
    if off < 0 then .next (takeError .offsetBeforeStart s.dec.src s)
    else if s.params.outCap < s.dec.dst + matchLength m then .next (takeError .outputOverflow s.dec.src s)
    else
      let t := copyMatch (matchLength m) (s.setDec { s.dec with off := off, cnt := matchLength m })
      .next (t.setDec { t.dec with src := t.dec.src + 2 })

end Sys2Proof.Machine
end

