-- ==== Sys2Proof/Machine/MatchFinder.lean ====
section
/-! DEFINITION. The Match Finder's one operation, FIND (40_match_finder.md R100 to R108). -/

namespace Sys2Proof.Machine

/-- The inner loop of R102 from `num` on: `while F.num + 1 < F.lim and IN[F.s + F.num] = IN[F.d + F.num]`. `passes` is
`F.lim - 1 - num`, the passes the bound still allows. -/
def matchRun (byteAt : Nat → Byte) (s d : Nat) : (passes num : Nat) → Nat
  | 0, num => num
  | passes + 1, num =>
    if byteAt (s + num) = byteAt (d + num) then matchRun byteAt s d passes (num + 1) else num

/-- `F.num` for the candidate `s`: the longest run of equal bytes strictly shorter than `lim` (R102). -/
def candidateLength (byteAt : Nat → Byte) (d lim s : Nat) : Nat := matchRun byteAt s d (lim - 1) 0

/-- The initialisation of R101, for an input of `n` bytes. -/
def findInit (p : Config.Params) (n d : Nat) (f : Finder) : Finder :=
  { f with d := d, lim := min (n - d) p.matchLimit, bestLen := 0, bestSrc := none }

/-- One candidate: its length (R102), then strict improvement (R103). -/
def findCandidate (byteAt : Nat → Byte) (f : Finder) (s : Nat) : Finder :=
  let num := candidateLength byteAt f.d f.lim s
  if f.bestLen < num then { f with s := s, num := num, bestLen := num, bestSrc := some s }
  else { f with s := s, num := num }

/-- The candidates of position `d`, oldest first: `[max(0, d - 256), d)` (R102). -/
def findWindow (d : Nat) : List Nat := List.range' (d - Config.window) (min d Config.window)

/-- The normalisation of R104. -/
def findNormalise (f : Finder) : Finder :=
  if f.bestLen < 2 then { f with bestLen := 0, bestSrc := none } else f

/-- FIND at `d = E.dst` over `IN[0..n-1]`, `n = IN_LEN`; the result is `F.bestLen` and `F.bestSrc` (R100, R34). It
writes only `F.*`. -/
def findMatch (s : State) : State :=
  s.setFnd (findNormalise
    ((findWindow s.enc.dst).foldl (findCandidate s.inByte) (findInit s.params s.inLen s.enc.dst s.fnd)))

end Sys2Proof.Machine
end

