-- ==== Sys2Proof/Machine/Encoder.lean ====
section
/-! DEFINITION. The Encoder: the command ENCODE, the actions of 41_encoder.md R122 to R128, and one iteration of its
loop (R121), which is one step of the machine (decision D17: "one iteration per step"). -/

namespace Sys2Proof.Machine

/-- ENCODE, as a command the host writes to `CMD` (10_state.md R21, R23; 41_encoder.md R121). It starts the operation:
`STATE <- BUSY` and the first line of R121, or INPUT_TOO_LONG at once when `IN_LEN > IN_CAP`. The loop of R121 then
runs one iteration a step (`encoderStep`). While BUSY a write of `CMD` is refused. -/
def execEncode (s : State) : Host.Outcome State Fault Refusal :=
  if s.busy then .refused .commandWhileBusy
  else
    let t := startOperation .encode s
    if t.params.inCap < t.inLen then .next (takeError .inputTooLong 0 t)
    else .next (t.setEnc { dst := 0, isOpen := false, runLen := 0, hdr := none, olen := 0 })

/-- `Append(v)` (R128). -/
def appendByte (v : Byte) (s : State) : Flow :=
  if s.enc.olen = s.params.outCap then .raised (takeError .outputOverflow s.enc.dst s)
  else .go ((s.storeOut s.enc.olen v).setEnc { s.enc with olen := s.enc.olen + 1 })

/-- `Finalize()` (R124): `OUT[E.hdr] <- E.runLen`, and the run is closed. Its precondition is `E.open = 1`; with
`E.hdr = ⊥` there is no position to write. -/
def finalizeRun (s : State) : Flow :=
  match s.enc.hdr with
  | none => .stuck .bottomRead
  | some h => .go ((s.storeOut h (litHeader s.enc.runLen)).setEnc { s.enc with isOpen := false, hdr := none })

/-- `if E.open = 1: Finalize()` (R123, R127). -/
def finalizeIfOpen (s : State) : Flow := if s.enc.isOpen then finalizeRun s else .go s

/-- `SplitIfFull()` (R125). -/
def splitIfFull (s : State) : Flow :=
  if s.enc.isOpen && decide (s.enc.runLen = Config.litMax) then finalizeRun s else .go s

/-- `E.hdr <- E.olen` (R126); the placeholder byte that follows draws a free value (decision D8). -/
def reserveHeader (s : State) : State :=
  { s with enc := { s.enc with hdr := some s.enc.olen }, fresh := s.fresh + 1 }

/-- The first half of `EmitLiteral()` (R126): open a run if none is open, with a placeholder at the reserved
position, "value unspecified". -/
def openRunIfClosed (s : State) : Flow :=
  if s.enc.isOpen then .go s
  else
    (appendByte (Config.freeByte s.fresh) (reserveHeader s)).andThen fun u =>
      .go (u.setEnc { u.enc with isOpen := true, runLen := 0 })

/-- `EmitLiteral()` (R126). -/
def emitLiteral (s : State) : Flow :=
  (openRunIfClosed s).andThen fun t =>
    (appendByte (t.inByte t.enc.dst) t).andThen fun u =>
      .go (u.setEnc { u.enc with runLen := u.enc.runLen + 1, dst := u.enc.dst + 1 })

/-- `EmitMatch(L, S)` (R123). -/
def emitMatch (len src : Nat) (s : State) : Flow :=
  (finalizeIfOpen s).andThen fun t =>
    (appendByte (matchHeader (matchField len)) t).andThen fun u =>
      (appendByte (distanceByte src u.enc.dst) u).andThen fun v =>
        .go (v.setEnc { v.enc with dst := v.enc.dst + len })

/-- `Finish()` (R127). -/
def finishEncode (s : State) : Flow :=
  (finalizeIfOpen s).andThen fun t =>
    (appendByte Config.terminator t).andThen fun u => .go (completeOperation u.enc.olen u)

/-- The body of R121's loop: FIND, then EmitMatch if the length is accepted, else SplitIfFull and EmitLiteral. The
Encoder reads `F.bestSrc` only when it accepts the match (10_state.md R34). -/
def encodeIteration (s : State) : Flow :=
  let t := findMatch s
  if accepts t.params t.enc.isOpen t.fnd.bestLen then
    match t.fnd.bestSrc with
    | none => .stuck .bottomRead
    | some src => emitMatch t.fnd.bestLen src t
  else (splitIfFull t).andThen emitLiteral

/-- One step of the Encoder: an iteration while `E.dst < n`, then Finish (R121). -/
def encoderStep (s : State) : Host.Outcome State Fault Refusal :=
  if s.enc.dst < s.inLen then (encodeIteration s).toOutcome else (finishEncode s).toOutcome

end Sys2Proof.Machine
end

