-- ==== Sys2Proof/Machine/Dispatch.lean ====
section
/-! DEFINITION. What each instruction does: one arm for each constructor of `Instr`. -/

namespace Sys2Proof.Machine

/-- The meaning of an instruction. -/
def exec (i : Instr) (s : State) : Host.Outcome State Fault Refusal :=
  match i with
  | .tokEnd => Sys2Proof.Machine.execEnd s
  | .tokLit payload => Sys2Proof.Machine.execLit payload s
  | .tokMatch m d => Sys2Proof.Machine.execMatch m d s
  | .cmdEncode => Sys2Proof.Machine.execEncode s
  | .cmdDecode => Sys2Proof.Machine.execDecode s

end Sys2Proof.Machine
end

