-- ==== Sys2Proof/Machine/Agents.lean ====
section
/-! DEFINITION. Who moves in a step: the block's running agent (10_state.md section 2) or the host (R20 to R27,
60_exceptions.md R187, 70_reset_and_hazards.md R204, R205). -/

namespace Sys2Proof.Machine

/-! ## The block -/

/-- The bytes the Decoder may read for the token at `D.src`: `IN[D.src .. n-1]`, no more than the longest token. The
bounds are against `n = IN_LEN` (42_decoder.md R154). -/
def fetchBytes (s : State) : List Byte :=
  (List.range' s.dec.src (min (s.inLen - s.dec.src) Config.maxTokenBytes)).map s.inByte

/-- The error the Decoder raises for bytes that decode to no token (60_exceptions.md R181). The last case cannot
arise: a token decoder never rejects for a command's reserved bits. -/
def rejectCause : Reject → Cause
  | .missingTerminator => .missingTerminator
  | .truncatedLiteral => .truncatedLiteral
  | .truncatedMatch => .truncatedMatch
  | .reservedCommand => .none

/-- One iteration of the Decoder's loop (42_decoder.md R151): the token at `pc = D.src`, or the error of a token that
is not there whole, which comes before every other error of the token (60_exceptions.md R185). -/
def decoderStep (s : State) : Host.Outcome State Fault Refusal :=
  match decodeToken (fetchBytes s) with
  | .instr i _ => exec i s
  | .rejected why => .next (takeError (rejectCause why) s.dec.src s)

/-- A step of the block: the agent of the running operation moves; otherwise nothing does ("After reset it does nothing
until the host writes `CMD`", 70_reset_and_hazards.md R202). -/
def blockStep (s : State) : Host.Outcome State Fault Refusal :=
  if s.encoding then encoderStep s
  else if s.decoding then decoderStep s
  else .next s

/-! ## The host -/

/-- The width in bits of a host register (10_state.md R20). -/
def regWidth (p : Config.Params) : HostReg → Nat
  | .cmd => 8
  | .status => 8
  | .inLen => p.cursorBits
  | .outLen => p.cursorBits
  | .errSrc => p.cursorBits
  | .inCapR => p.cursorBits
  | .outCapR => p.cursorBits

/-- The number of a host register (10_state.md R20). -/
def regNumber : HostReg → Nat
  | .cmd => 0
  | .status => 1
  | .inLen => 2
  | .outLen => 3
  | .errSrc => 4
  | .inCapR => 5
  | .outCapR => 6

/-- What a register reads as while `STATE != BUSY` (R20 to R26); `CMD` "reads 0". -/
def regValue (s : State) : HostReg → Nat
  | .cmd => 0
  | .status => s.status.toNat
  | .inLen => s.inLen
  | .outLen => s.outLen
  | .errSrc => s.errSrc
  | .inCapR => s.params.inCap
  | .outCapR => s.params.outCap

/-- The host reads a register. While BUSY only `STATUS` reads as it is; any other "returns an unspecified value"
(R27): a free value of the register's width. -/
def hostReadReg (r : HostReg) (s : State) : State :=
  if s.busy && decide (r ≠ .status) then
    { s with readData := some (Config.freeNat s.fresh 0 % 2 ^ regWidth s.params r), fresh := s.fresh + 1 }
  else { s with readData := some (regValue s r) }

/-- The host writes `v` to `CMD`: the command it stands for, or the refusal of a reserved bit (R21, 30_encoding.md
R80). -/
def hostCommand (v : Nat) (s : State) : Host.Outcome State Fault Refusal :=
  if v < 2 ^ 8 then
    match decodeCommand (BitVec.ofNat 8 v) with
    | .instr i _ => exec i s
    | .rejected _ => .refused .reservedCommandBits
  else .refused .valueTooWide

/-- The host writes `v` to `IN_LEN` (R23). -/
def hostWriteInLen (v : Nat) (s : State) : Host.Outcome State Fault Refusal :=
  if s.busy then .refused .writeWhileBusy
  else if v < 2 ^ s.params.cursorBits then .next { s with inLen := v }
  else .refused .valueTooWide

/-- The host writes `v` to a register (R20, R26). -/
def hostWriteReg (r : HostReg) (v : Nat) (s : State) : Host.Outcome State Fault Refusal :=
  match r with
  | .cmd => hostCommand v s
  | .inLen => hostWriteInLen v s
  | .status => .refused .readOnlyRegister
  | .outLen => .refused .readOnlyRegister
  | .errSrc => .refused .readOnlyRegister
  | .inCapR => .refused .readOnlyRegister
  | .outCapR => .refused .readOnlyRegister

/-- The host writes `IN[a]`. -/
def hostWriteIn (a : Nat) (v : Byte) (s : State) : Host.Outcome State Fault Refusal :=
  if s.busy then .refused .writeWhileBusy
  else if a < s.params.inCap then .next (s.storeIn a v)
  else .fault .addressOutOfRange

/-- The host reads `IN[a]`, at any time: R187 refuses no read of IN. -/
def hostReadIn (a : Nat) (s : State) : Host.Outcome State Fault Refusal :=
  if a < s.params.inCap then .next { s with readData := some (s.inByte a).toNat }
  else .fault .addressOutOfRange

/-- The host writes `OUT[a]`. -/
def hostWriteOut (a : Nat) (v : Byte) (s : State) : Host.Outcome State Fault Refusal :=
  if s.busy then .refused .writeWhileBusy
  else if a < s.params.outCap then .next (s.storeOut a v)
  else .fault .addressOutOfRange

/-- The host reads `OUT[a]`. -/
def hostReadOut (a : Nat) (s : State) : Host.Outcome State Fault Refusal :=
  if s.busy then .refused .readOutWhileBusy
  else if a < s.params.outCap then .next { s with readData := some (s.outByte a).toNat }
  else .fault .addressOutOfRange

/-- The host resets the block (70_reset_and_hazards.md R200, R201), at any time: the host registers as after reset; the
agent registers and both memories unspecified, so free values (log entry 4). The parameters, the host's pending
actions and what it has read are no state of the block and stay. -/
def hostReset (s : State) : State :=
  let t := { State.resetWith s.params with
    inEpoch := s.fresh
    outEpoch := s.fresh
    fresh := s.fresh + 1
    host := s.host
    readData := s.readData }
  t.freeAgents s.fresh

/-- One action of the host, already taken from the pending ones. -/
def hostAct (a : HostAction) (s : State) : Host.Outcome State Fault Refusal :=
  match a with
  | .writeReg r v => hostWriteReg r v s
  | .readReg r => .next (hostReadReg r s)
  | .writeIn a v => hostWriteIn a v s
  | .readIn a => hostReadIn a s
  | .writeOut a v => hostWriteOut a v s
  | .readOut a => hostReadOut a s
  | .pass => blockStep s
  | .waitWhileBusy => .next (hostReadReg .status s)
  | .reset => .next (hostReset s)

/-- The host's action stays pending: it waits, and the block is still BUSY (70_reset_and_hazards.md R204). -/
def hostWaits (a : HostAction) (s : State) : Bool := decide (a = .waitWhileBusy) && s.busy

/-- A step of the machine: the host's oldest pending action, or a step of the block while the host waits or has none
(log entry 7). -/
def machineStep (s : State) : Host.Outcome State Fault Refusal :=
  match s.host with
  | [] => blockStep s
  | a :: rest => if hostWaits a s then blockStep s else hostAct a { s with host := rest }

/-- `k` steps of the block alone, with no action of the host: how an operation runs (70_reset_and_hazards.md R209). -/
def runBlock : (k : Nat) → State → Host.Outcome State Fault Refusal
  | 0, s => .next s
  | k + 1, s =>
    match blockStep s with
    | .next t => runBlock k t
    | .fault r => .fault r
    | .refused r => .refused r

/-- The Decoder runs, and the token whose bits are `w` stands at `D.src` in IN, followed by zero bytes up to the longest
token, all of them below `n` (log entry 12). -/
def placeToken (s : State) (nbits w : Nat) : State :=
  { s with
    status := setStatusCause .none (setStatusOp .decode (setStatusState .busy s.status))
    inLen := max s.inLen (s.dec.src + Config.maxTokenBytes)
    inMem := writeCells s.inMem s.dec.src (tableBytes nbits w)
    host := [] }

end Sys2Proof.Machine
end

