-- ==== Sys2Proof/Machine/Step.lean ====
section
/-! DEFINITION. The step of the machine, and how the host's checks put an instruction before it. -/

namespace Sys2Proof.Machine

/-- One step: `machineStep`. -/
def step (s : State) : Host.Outcome State Fault Refusal := machineStep s

/-- `s` with the instruction whose bits are `w` where `step` fetches its next instruction: `placeToken`. -/
def State.withFetchWord (s : State) (nbits w : Nat) : State := placeToken s nbits w

end Sys2Proof.Machine
end

