-- ==== Sys2Proof/Safety.lean ====
section
/-! DEFINITION. What claims are stated in: the invariant of the machine, the input and output of an operation, and a
run that has ended. -/

namespace Sys2Proof.Machine

/-! ## The invariant: every register in its stated range (00_scope.md R9) -/

/-- `STATUS` as 10_state.md R22 describes it: the reserved bits 3 and 7 read 0, the reserved cause 7 is never
reported, and `CAUSE` is not 0 exactly when `STATE = ERROR`. -/
abbrev StatusOk (w : Byte) : Prop :=
  w &&& 0x88#8 = 0#8 ∧ statusCause w ≠ 7 ∧ (statusState w = .error ↔ statusCause w ≠ 0)

/-- A register that may hold ⊥ fits its width when it does not. -/
abbrev FitsOrBottom (x : Option Nat) (bound : Nat) : Prop := ∀ v ∈ x, v < bound

/-- Every register fits its width (10_state.md R20, R28 to R37). -/
structure Widths (s : State) : Prop where
  inLen : s.inLen < 2 ^ s.params.cursorBits
  outLen : s.outLen < 2 ^ s.params.cursorBits
  errSrc : s.errSrc < 2 ^ s.params.cursorBits
  encDst : s.enc.dst < 2 ^ s.params.cursorBits
  encRunLen : s.enc.runLen < 2 ^ 7
  encHdr : FitsOrBottom s.enc.hdr (2 ^ s.params.cursorBits)
  encOlen : s.enc.olen < 2 ^ s.params.cursorBits
  fndD : s.fnd.d < 2 ^ s.params.cursorBits
  fndLim : s.fnd.lim < 2 ^ 8
  fndS : s.fnd.s < 2 ^ s.params.cursorBits
  fndNum : s.fnd.num < 2 ^ 8
  fndBestLen : s.fnd.bestLen < 2 ^ 8
  fndBestSrc : FitsOrBottom s.fnd.bestSrc (2 ^ s.params.cursorBits)
  decSrc : s.dec.src < 2 ^ s.params.cursorBits
  decDst : s.dec.dst < 2 ^ s.params.cursorBits
  decOffLow : -(2 ^ s.params.cursorBits : Int) ≤ s.dec.off
  decOffHigh : s.dec.off < (2 ^ s.params.cursorBits : Int)
  decCnt : s.dec.cnt < 2 ^ 8

/-- Both memories are in canonical form and hold no byte outside their size (20_memory.md R50), and the event that last
left each unspecified lies before the next one, so the next draws new values (70_reset_and_hazards.md R201,
20_memory.md R59). -/
structure MemoriesOk (s : State) : Prop where
  inWf : s.inMem.wf
  outWf : s.outMem.wf
  inBound : ∀ c ∈ s.inMem, c.1 < s.params.inCap
  outBound : ∀ c ∈ s.outMem, c.1 < s.params.outCap
  inEpoch : s.inEpoch < s.fresh
  outEpoch : s.outEpoch < s.fresh

/-- While the Encoder runs: the ranges of 10_state.md R28 to R32, OUT written exactly below `E.olen`, and an open run
whose reserved header stands just before its `E.runLen` bytes, at the end of the output. -/
structure EncoderOk (s : State) : Prop where
  inLen : s.inLen ≤ s.params.inCap
  dst : s.enc.dst ≤ s.inLen
  olen : s.enc.olen ≤ s.params.outCap
  written : ∀ a, (readCell s.outMem a).isSome ↔ a < s.enc.olen
  closed : s.enc.isOpen = false → s.enc.hdr = none
  opened : s.enc.isOpen = true →
    1 ≤ s.enc.runLen ∧ s.enc.runLen ≤ Config.litMax ∧
    ∃ h, s.enc.hdr = some h ∧ h + 1 + s.enc.runLen = s.enc.olen

/-- While the Decoder runs: the ranges of 10_state.md R35 and R36, and OUT written exactly below `D.dst`
(20_memory.md R62). -/
structure DecoderOk (s : State) : Prop where
  inLen : s.inLen ≤ s.params.inCap
  src : s.dec.src ≤ s.inLen
  dst : s.dec.dst ≤ s.params.outCap
  written : ∀ a, (readCell s.outMem a).isSome ↔ a < s.dec.dst

/-- After DONE: the output `OUT[0 .. OUT_LEN-1]` is in OUT, every byte of it written (20_memory.md R59). -/
structure OutputOk (s : State) : Prop where
  outLen : s.outLen ≤ s.params.outCap
  written : ∀ a, a < s.outLen → (readCell s.outMem a).isSome

/-- The invariant of the machine. -/
structure Inv (s : State) : Prop where
  params : s.params.wf
  status : StatusOk s.status
  widths : Widths s
  memories : MemoriesOk s
  encoder : s.encoding → EncoderOk s
  decoder : s.decoding → DecoderOk s
  output : statusState s.status = .done → OutputOk s

/-! ## Operations as functions on bytes (00_scope.md R3) -/

/-- The input of the next operation, `IN[0..n-1]` (10_state.md R23). -/
def State.input (s : State) : List Byte := (List.range s.inLen).map s.inByte

/-- The output after DONE, `OUT[0 .. OUT_LEN-1]` (10_state.md R24). -/
def State.output (s : State) : List Byte := (List.range s.outLen).map s.outByte

/-- The host's steps 2 and 3 of 70_reset_and_hazards.md R204: `bytes` in `IN[0..n-1]`, `n` in `IN_LEN`. -/
def State.load (bytes : List Byte) (s : State) : State :=
  { s with inMem := writeCells s.inMem 0 bytes, inLen := bytes.length }

/-- An operation has ended: `STATUS.STATE` is DONE or ERROR (R209). -/
abbrev State.ended (s : State) : Prop :=
  statusState s.status = .done ∨ statusState s.status = .error

/-- From `s` the command `i` starts its operation and the block alone brings it to DONE in state `t`. -/
def Completes (i : Instr) (s t : State) : Prop :=
  ∃ u k, exec i s = .next u ∧ runBlock k u = .next t ∧ statusState t.status = .done

end Sys2Proof.Machine
end

