-- ==== Sys2Proof/Certificates/Slice0/Obligations.lean ====
section
/-! DEFINITION. The statements for the provers, from the numbered rules of the spec. Each is over all states, so over all
parameters (00_scope.md R7) and all contents of the memories. -/

open Sys2Proof Sys2Proof.Machine

namespace Sys2Proof.Machine

/-- The bytes `IN[a .. a+count-1]`. -/
def State.inBytes (s : State) (a count : Nat) : List Byte := (List.range count).map fun k => s.inByte (a + k)

/-- How many bytes a token adds to the output (42_decoder.md R158): `L` for a LIT, `len` for a MATCH. -/
def outputLength : Instr → Nat
  | .tokEnd => 0
  | .tokLit payload => payload.length
  | .tokMatch m _ => m.toNat + 2
  | .cmdEncode => 0
  | .cmdDecode => 0

/-- The output bytes outside `[from, to)` read the same in `s` and `t`. -/
def SameOutputOutside (lo hi : Nat) (s t : State) : Prop :=
  ∀ a, a < lo ∨ hi ≤ a → t.outByte a = s.outByte a

end Sys2Proof.Machine

/-! ## Reset -/

/-- R200, R20, R22: the host registers after reset, for any parameters, and that reset memories hold no known byte. What
the agent registers hold is the model's choice (log entry 4) and is not stated. -/
def Obligations.ResetGivesHostRegistersTheirValues : Prop :=
  ∀ p : Config.Params,
    (State.resetWith p).status = 0x00#8 ∧
    statusState (State.resetWith p).status = .idle ∧ statusOp (State.resetWith p).status = .encode ∧
    statusCause (State.resetWith p).status = 0 ∧
    (State.resetWith p).inLen = 0 ∧ (State.resetWith p).outLen = 0 ∧ (State.resetWith p).errSrc = 0 ∧
    regValue (State.resetWith p) .inCapR = p.inCap ∧ regValue (State.resetWith p) .outCapR = p.outCap ∧
    (∀ a, readCell (State.resetWith p).inMem a = none ∧ readCell (State.resetWith p).outMem a = none)

/-- The state right after reset meets the invariant. It rests on the values the model names for the parameters and for the
agent registers (log entries 2, 3 and 4). -/
def Obligations.ResetMeetsInvariant : Prop := Inv State.reset

/-- R202, R186: while no operation runs and the host does nothing, a step changes nothing. -/
def Obligations.NothingHappensUntilHostActs : Prop :=
  ∀ s : State, s.host = [] → statusState s.status ≠ .busy → step s = .next s

/-! ## Encoding -/

/-- R82: the worked encodings, bit for bit, with the lengths and distances of R81. -/
def Obligations.WorkedEncodingsDecode : Prop :=
  decodeToken [0x01#8, 0x41#8] = .instr (.tokLit [0x41#8]) [] ∧
  decodeToken [0xB2#8, 0xEE#8] = .instr (.tokMatch 0x32#7 0xEE#8) [] ∧
  matchLength 0x32#7 = 52 ∧ matchDistance 0xEE#8 = 18 ∧
  decodeToken [0xFE#8, 0xFF#8] = .instr (.tokMatch 0x7E#7 0xFF#8) [] ∧
  matchLength 0x7E#7 = 128 ∧ matchDistance 0xFF#8 = 1 ∧
  decodeToken [0xFF#8, 0x00#8] = .instr (.tokMatch 0x7F#7 0x00#8) [] ∧
  matchLength 0x7F#7 = 129 ∧ matchDistance 0x00#8 = 256 ∧
  decodeToken [0x00#8] = .instr .tokEnd [] ∧
  decodeStream 5 [0x12#8, 0x74#8, 0x68#8, 0x69#8, 0x73#8, 0x20#8, 0x69#8, 0x73#8, 0x20#8, 0x73#8, 0x6F#8, 0x6D#8,
      0x65#8, 0x20#8, 0x74#8, 0x65#8, 0x78#8, 0x74#8, 0x20#8, 0xB2#8, 0xEE#8, 0x01#8, 0x74#8, 0x00#8] =
    some ([.tokLit [0x74#8, 0x68#8, 0x69#8, 0x73#8, 0x20#8, 0x69#8, 0x73#8, 0x20#8, 0x73#8, 0x6F#8, 0x6D#8, 0x65#8,
      0x20#8, 0x74#8, 0x65#8, 0x78#8, 0x74#8, 0x20#8], .tokMatch 0x32#7 0xEE#8, .tokLit [0x74#8], .tokEnd], [])

/-- R72: every header byte selects exactly one token, END tested before bit 7; a token whose own bytes are missing is
rejected by name (R78). -/
def Obligations.HeaderByteSelectsToken : Prop :=
  decodeToken [] = .rejected .missingTerminator ∧
  ∀ (h : Byte) (rest : List Byte),
    (h = 0x00#8 → decodeToken (h :: rest) = .instr .tokEnd rest) ∧
    (h ≠ 0x00#8 → h.getLsbD 7 = false →
      (h.extractLsb' 0 7).toNat ≤ rest.length →
      decodeToken (h :: rest) = .instr (.tokLit (rest.take (h.extractLsb' 0 7).toNat))
        (rest.drop (h.extractLsb' 0 7).toNat)) ∧
    (h ≠ 0x00#8 → h.getLsbD 7 = false → rest.length < (h.extractLsb' 0 7).toNat →
      decodeToken (h :: rest) = .rejected .truncatedLiteral) ∧
    (h.getLsbD 7 = true → ∀ d rest', rest = d :: rest' →
      decodeToken (h :: rest) = .instr (.tokMatch (h.extractLsb' 0 7) d) rest') ∧
    (h.getLsbD 7 = true → rest = [] → decodeToken (h :: rest) = .rejected .truncatedMatch)

/-- R73: the length of a token is known from its header byte alone: 1 for END, `1 + h[6:0]` for LIT, 2 for MATCH. -/
def Obligations.TokenLengthFollowsFromHeader : Prop :=
  ∀ (h : Byte) (bytes rest : List Byte) (i : Instr), decodeToken (h :: bytes) = .instr i rest →
    (h :: bytes).length = rest.length +
      (if h = 0x00#8 then 1 else if h.getLsbD 7 then 2 else 1 + (h.extractLsb' 0 7).toNat)

/-- R80: the two commands, and every other value of `CMD` rejected. -/
def Obligations.CommandValuesDecode : Prop :=
  decodeCommand 0x00#8 = .instr .cmdEncode [] ∧ decodeCommand 0x01#8 = .instr .cmdDecode [] ∧
  ∀ v : Byte, 0x02#8 ≤ v → decodeCommand v = .rejected .reservedCommand

/-- Decoding an encoded well-formed instruction gives it back, with every operand at every value, whatever bytes follow a
token. -/
def Obligations.DecodeOfEncodeIsIdentity : Prop :=
  ∀ i : Instr, i.wellFormed = true →
    (i.isToken = true → ∀ rest, decodeToken (encode i ++ rest) = .instr i rest) ∧
    (i.isToken = false → ∃ v, encode i = [v] ∧ decodeCommand v = .instr i [])

/-- Each stream of bytes has one reading: what decodes is the encoding of what it decodes to, and that is well formed. -/
def Obligations.EncodeOfDecodeIsIdentity : Prop :=
  (∀ bytes i rest, decodeToken bytes = .instr i rest →
    i.wellFormed = true ∧ i.isToken = true ∧ encode i ++ rest = bytes) ∧
  (∀ v i rest, decodeCommand v = .instr i rest →
    i.wellFormed = true ∧ i.isToken = false ∧ encode i = [v] ∧ rest = [])

/-- R76: the distance byte the Encoder writes leads the Decoder back to the source position. -/
def Obligations.DistanceByteLeadsBackToSource : Prop :=
  ∀ src dst : Nat, src < dst → dst ≤ src + 256 →
    ((distanceByte src dst).toNat : Int) = ((src : Int) - dst + 256) % 256 ∧
    matchOffset dst (distanceByte src dst) = src

/-! ## A step runs the decoded instruction -/

/-- While the Decoder runs and the host does nothing, a step is the meaning of the token that the bytes at `D.src`
decode to. -/
def Obligations.StepRunsDecodedToken : Prop :=
  ∀ (s : State) (i : Instr) (rest : List Byte), s.host = [] → s.decoding = true →
    decodeToken (fetchBytes s) = .instr i rest → step s = exec i s

/-- R151: one iteration of the Decoder's loop, from the bytes of IN: the error of a missing header, END, LIT with its
payload, MATCH with its distance byte, and the errors of a token whose own bytes run past the input. -/
def Obligations.DecoderLoopInterpretsHeader : Prop :=
  ∀ s : State, s.host = [] → s.decoding = true →
    (s.inLen ≤ s.dec.src → step s = .next (takeError .missingTerminator s.dec.src s)) ∧
    (s.dec.src < s.inLen → s.inByte s.dec.src = 0x00#8 → step s = exec .tokEnd s) ∧
    (s.dec.src < s.inLen → s.inByte s.dec.src ≠ 0x00#8 → (s.inByte s.dec.src).getLsbD 7 = false →
      let count := ((s.inByte s.dec.src).extractLsb' 0 7).toNat
      (s.dec.src + count < s.inLen → step s = exec (.tokLit (s.inBytes (s.dec.src + 1) count)) s) ∧
      (s.inLen ≤ s.dec.src + count → step s = .next (takeError .truncatedLiteral s.dec.src s))) ∧
    (s.dec.src < s.inLen → (s.inByte s.dec.src).getLsbD 7 = true →
      (s.dec.src + 1 < s.inLen →
        step s = exec (.tokMatch ((s.inByte s.dec.src).extractLsb' 0 7) (s.inByte (s.dec.src + 1))) s) ∧
      (s.inLen ≤ s.dec.src + 1 → step s = .next (takeError .truncatedMatch s.dec.src s)))

/-- R80, R21: a byte the host writes to `CMD` runs the command it encodes, or is refused for its reserved bits. The host's
pending actions are the model's own (log entry 7). -/
def Obligations.StepRunsCommandWrittenToCmd : Prop :=
  ∀ (s : State) (v : Byte) (rest : List HostAction), s.host = .writeReg .cmd v.toNat :: rest →
    (v = 0x00#8 → step s = exec .cmdEncode { s with host := rest }) ∧
    (v = 0x01#8 → step s = exec .cmdDecode { s with host := rest }) ∧
    (0x02#8 ≤ v → step s = .refused .reservedCommandBits)

/-- R211, R204: while BUSY the block moves when the host does nothing, waits or passes; the host that waits goes on
waiting. While the Encoder runs that move is its iteration, or Finish once the input is exhausted (R121). One iteration a
step, and the host's pending actions, are the model's choices (log entries 7 and 10). -/
def Obligations.BusyBlockMovesWhileHostWaits : Prop :=
  ∀ s : State, s.busy = true →
    (s.host = [] → step s = blockStep s) ∧
    (∀ rest, s.host = .waitWhileBusy :: rest → step s = blockStep s) ∧
    (∀ rest, s.host = .pass :: rest → step s = blockStep { s with host := rest }) ∧
    (s.encoding = true → s.enc.dst < s.inLen → blockStep s = (encodeIteration s).toOutcome) ∧
    (s.encoding = true → s.inLen ≤ s.enc.dst → blockStep s = (finishEncode s).toOutcome)

/-! ## The commands -/

/-- R21, R121: ENCODE starts the Encoder: BUSY, `OP` ENCODE, `CAUSE` 0, `E.*` initialised; `OUT_LEN` and OUT are
unspecified from here (R24, R59), and everything else stays. -/
def Obligations.EncodeStartsEncoder : Prop :=
  ∀ s : State, s.busy = false → s.inLen ≤ s.params.inCap →
    ∃ t, exec .cmdEncode s = .next t ∧
      statusState t.status = .busy ∧ statusOp t.status = .encode ∧ statusCause t.status = 0 ∧
      t.status &&& 0x88#8 = s.status &&& 0x88#8 ∧
      t.enc = { dst := 0, isOpen := false, runLen := 0, hdr := none, olen := 0 } ∧
      t = { s with status := t.status, enc := t.enc, outLen := t.outLen, outMem := t.outMem,
                   outEpoch := t.outEpoch, fresh := t.fresh }

/-- R21, R151: DECODE starts the Decoder: BUSY, `OP` DECODE, `CAUSE` 0, `D.src` and `D.dst` 0; `OUT_LEN` and OUT are
unspecified from here (R24, R59), and everything else stays. -/
def Obligations.DecodeStartsDecoder : Prop :=
  ∀ s : State, s.busy = false → s.inLen ≤ s.params.inCap →
    ∃ t, exec .cmdDecode s = .next t ∧
      statusState t.status = .busy ∧ statusOp t.status = .decode ∧ statusCause t.status = 0 ∧
      t.status &&& 0x88#8 = s.status &&& 0x88#8 ∧
      t.dec = { s.dec with src := 0, dst := 0 } ∧
      t = { s with status := t.status, dec := t.dec, outLen := t.outLen, outMem := t.outMem,
                   outEpoch := t.outEpoch, fresh := t.fresh }

/-- R23, R181: a command with `IN_LEN > IN_CAP` fails at once with INPUT_TOO_LONG and `ERR_SRC` 0, `STATUS.OP` the
command's. -/
def Obligations.CommandFailsOnInputTooLong : Prop :=
  ∀ s : State, s.busy = false → s.params.inCap < s.inLen →
    (∃ t, exec .cmdEncode s = .next t ∧ statusState t.status = .error ∧ statusCause t.status = 6 ∧
      statusOp t.status = .encode ∧ t.errSrc = 0 ∧ t.inMem = s.inMem ∧ t.inLen = s.inLen) ∧
    (∃ t, exec .cmdDecode s = .next t ∧ statusState t.status = .error ∧ statusCause t.status = 6 ∧
      statusOp t.status = .decode ∧ t.errSrc = 0 ∧ t.inMem = s.inMem ∧ t.inLen = s.inLen)

/-- R21: "A write to `CMD` while `STATUS.STATE = BUSY` is refused." -/
def Obligations.CommandsRefusedWhileBusy : Prop :=
  ∀ s : State, s.busy = true →
    exec .cmdEncode s = .refused .commandWhileBusy ∧ exec .cmdDecode s = .refused .commandWhileBusy

/-! ## The tokens -/

/-- R152: END completes DECODE: `OUT_LEN <- D.dst`, `STATE <- DONE`, and nothing else changes; `D.src` stays at the
terminator. -/
def Obligations.EndCompletesDecode : Prop :=
  ∀ s : State, ∃ t, exec .tokEnd s = .next t ∧ t = { s with outLen := s.dec.dst, status := t.status } ∧
    statusState t.status = .done ∧ t.status &&& 0xFC#8 = s.status &&& 0xFC#8

/-- R153: LIT copies its payload to `OUT[D.dst ..]` and advances `D.src` past the token and `D.dst` past the copy; its
frame: every other register, all of IN and every other byte of OUT stay. -/
def Obligations.LitCopiesPayload : Prop :=
  ∀ (payload : List Byte) (s : State), s.dec.src + payload.length < s.inLen →
    s.dec.dst + payload.length ≤ s.params.outCap →
    ∃ t, exec (.tokLit payload) s = .next t ∧
      t = { s with
            outMem := t.outMem
            dec := { src := s.dec.src + 1 + payload.length, dst := s.dec.dst + payload.length,
                     off := s.dec.off, cnt := 0 } } ∧
      (∀ (i : Nat) (hi : i < payload.length), t.outByte (s.dec.dst + i) = payload[i]) ∧
      SameOutputOutside s.dec.dst (s.dec.dst + payload.length) s t

/-- R153, R185: the errors of LIT, tested before any byte is written, truncation before overflow. -/
def Obligations.LitErrorsInOrder : Prop :=
  ∀ (payload : List Byte) (s : State),
    (s.inLen ≤ s.dec.src + payload.length →
      exec (.tokLit payload) s = .next (takeError .truncatedLiteral s.dec.src s)) ∧
    (s.dec.src + payload.length < s.inLen → s.params.outCap < s.dec.dst + payload.length →
      exec (.tokLit payload) s = .next (takeError .outputOverflow s.dec.src s))

/-- R155, R156: MATCH with distance `dist = 256 - D` copies `len = M + 2` bytes one at a time, so the `dist` bytes
before `D.dst` repeat: `OUT[d0 + i] = OUT[off0 + (i mod dist)]`, the right side from before the MATCH. Its frame: every
other register, all of IN and every other byte of OUT stay. -/
def Obligations.MatchRepeatsEarlierOutput : Prop :=
  ∀ (m : BitVec 7) (d : Byte) (s : State), s.dec.src + 1 < s.inLen → 256 ≤ s.dec.dst + d.toNat →
    s.dec.dst + (m.toNat + 2) ≤ s.params.outCap →
    ∃ t, exec (.tokMatch m d) s = .next t ∧
      t = { s with
            outMem := t.outMem
            dec := { src := s.dec.src + 2, dst := s.dec.dst + (m.toNat + 2),
                     off := (s.dec.dst : Int) - 256 + d.toNat + (m.toNat + 2), cnt := 0 } } ∧
      (∀ i, i < m.toNat + 2 →
        t.outByte (s.dec.dst + i) = s.outByte (s.dec.dst + d.toNat - 256 + i % (256 - d.toNat))) ∧
      SameOutputOutside s.dec.dst (s.dec.dst + (m.toNat + 2)) s t

/-- R155, R185: the errors of MATCH, tested before any byte is written: truncation, then the offset, then overflow. -/
def Obligations.MatchErrorsInOrder : Prop :=
  ∀ (m : BitVec 7) (d : Byte) (s : State),
    (s.inLen ≤ s.dec.src + 1 →
      exec (.tokMatch m d) s = .next (takeError .truncatedMatch s.dec.src s)) ∧
    (s.dec.src + 1 < s.inLen → s.dec.dst + d.toNat < 256 →
      exec (.tokMatch m d) s = .next (takeError .offsetBeforeStart s.dec.src s)) ∧
    (s.dec.src + 1 < s.inLen → 256 ≤ s.dec.dst + d.toNat →
      s.params.outCap < s.dec.dst + (m.toNat + 2) →
      exec (.tokMatch m d) s = .next (takeError .outputOverflow s.dec.src s))

/-! ## Errors -/

/-- R184: `raise Error(cause, pos)` sets `ERR_SRC`, `CAUSE` and `STATE`, keeps `OP`, leaves `OUT_LEN`, OUT and the agent
registers unspecified, and "Nothing else changes". -/
def Obligations.ErrorRecordsCauseAndPosition : Prop :=
  ∀ (c : Cause) (pos : Nat) (s : State),
    (takeError c pos s).errSrc = pos ∧
    statusCause (takeError c pos s).status = causeCode c ∧
    statusState (takeError c pos s).status = .error ∧
    (takeError c pos s).status &&& 0x8C#8 = s.status &&& 0x8C#8 ∧
    takeError c pos s =
      { s with
        errSrc := pos, status := (takeError c pos s).status, outLen := (takeError c pos s).outLen,
        outMem := (takeError c pos s).outMem, outEpoch := (takeError c pos s).outEpoch,
        enc := (takeError c pos s).enc, fnd := (takeError c pos s).fnd, dec := (takeError c pos s).dec,
        fresh := (takeError c pos s).fresh }

/-! ## The Match Finder -/

/-- R102: a candidate's length is the greatest `k <= F.lim - 1` with `IN[s+i] = IN[d+i]` for all `i` in `[0, k)`. -/
def Obligations.CandidateLengthIsGreatest : Prop :=
  ∀ (byteAt : Nat → Byte) (d lim c k : Nat),
    k ≤ candidateLength byteAt d lim c ↔ k ≤ lim - 1 ∧ ∀ i, i < k → byteAt (c + i) = byteAt (d + i)

/-- R105: FIND returns the greatest length over the window and the least position that reaches it when that is at least
2, and (0, ⊥) otherwise; it writes only `F.*` (R100, R106). -/
def Obligations.FindReturnsEarliestLongestMatch : Prop :=
  ∀ s : State,
    findMatch s = { s with fnd := (findMatch s).fnd } ∧
    (∀ c, (findMatch s).fnd.bestSrc = some c →
      2 ≤ (findMatch s).fnd.bestLen ∧ s.enc.dst - 256 ≤ c ∧ c < s.enc.dst ∧
      candidateLength s.inByte s.enc.dst (min (s.inLen - s.enc.dst) s.params.matchLimit) c =
        (findMatch s).fnd.bestLen ∧
      ∀ c', s.enc.dst - 256 ≤ c' → c' < s.enc.dst →
        candidateLength s.inByte s.enc.dst (min (s.inLen - s.enc.dst) s.params.matchLimit) c' ≤
          (findMatch s).fnd.bestLen ∧
        (c' < c → candidateLength s.inByte s.enc.dst (min (s.inLen - s.enc.dst) s.params.matchLimit) c' <
          (findMatch s).fnd.bestLen)) ∧
    ((findMatch s).fnd.bestSrc = none →
      (findMatch s).fnd.bestLen = 0 ∧
      ∀ c', s.enc.dst - 256 ≤ c' → c' < s.enc.dst →
        candidateLength s.inByte s.enc.dst (min (s.inLen - s.enc.dst) s.params.matchLimit) c' < 2)

/-- R57, R102: what FIND finds depends on no byte of IN at or past `n`. -/
def Obligations.FindReadsOnlyTheInput : Prop :=
  ∀ s s' : State, s'.params = s.params → s'.inLen = s.inLen → s'.enc.dst = s.enc.dst → s'.fnd = s.fnd →
    (∀ a, a < s.inLen → s'.inByte a = s.inByte a) → (findMatch s').fnd = (findMatch s).fnd

/-! ## The Encoder's actions -/

/-- R122, R121: an iteration emits the match when its length reaches the threshold that `E.open` selects, and otherwise
splits a full run and emits a literal. -/
def Obligations.IterationAcceptsAtThreshold : Prop :=
  ∀ s : State,
    (∀ src, (findMatch s).fnd.bestSrc = some src →
      (if s.enc.isOpen then s.params.acceptMinOpen else s.params.acceptMinClosed) ≤ (findMatch s).fnd.bestLen →
      encodeIteration s = emitMatch (findMatch s).fnd.bestLen src (findMatch s)) ∧
    ((findMatch s).fnd.bestLen < (if s.enc.isOpen then s.params.acceptMinOpen else s.params.acceptMinClosed) →
      encodeIteration s = (splitIfFull (findMatch s)).andThen emitLiteral)

/-- R128: Append writes `OUT[E.olen]` and advances `E.olen`, or raises OUTPUT_OVERFLOW at `E.dst` when OUT is full. -/
def Obligations.AppendWritesOneByte : Prop :=
  ∀ (v : Byte) (s : State),
    (s.enc.olen = s.params.outCap → appendByte v s = .raised (takeError .outputOverflow s.enc.dst s)) ∧
    (s.enc.olen ≠ s.params.outCap →
      ∃ t, appendByte v s = .go t ∧
        t = { s with enc := { s.enc with olen := s.enc.olen + 1 }, outMem := t.outMem } ∧
        t.outByte s.enc.olen = v ∧ SameOutputOutside s.enc.olen (s.enc.olen + 1) s t)

/-- R124: Finalize patches the header position with the run length and closes the run; no other byte of OUT changes. -/
def Obligations.FinalizePatchesReservedHeader : Prop :=
  ∀ (h : Nat) (s : State), s.enc.hdr = some h →
    ∃ t, finalizeRun s = .go t ∧
      t = { s with enc := { s.enc with isOpen := false, hdr := none }, outMem := t.outMem } ∧
      t.outByte h = BitVec.ofNat 8 s.enc.runLen ∧ SameOutputOutside h (h + 1) s t

/-- R125: SplitIfFull finalizes an open run of exactly 127 bytes, and otherwise does nothing. -/
def Obligations.SplitClosesOnlyFullRun : Prop :=
  ∀ s : State,
    (s.enc.isOpen = true → s.enc.runLen = 127 → splitIfFull s = finalizeRun s) ∧
    (s.enc.isOpen = false ∨ s.enc.runLen ≠ 127 → splitIfFull s = .go s)

/-- R126: EmitLiteral appends `IN[E.dst]`, after a placeholder at a newly reserved header position when no run is open;
it raises OUTPUT_OVERFLOW at `E.dst` when a byte does not fit. -/
def Obligations.EmitLiteralAppendsInputByte : Prop :=
  ∀ s : State,
    (s.enc.isOpen = false → s.enc.olen + 2 ≤ s.params.outCap →
      ∃ t, emitLiteral s = .go t ∧
        t = { s with
              enc := { dst := s.enc.dst + 1, isOpen := true, runLen := 1, hdr := some s.enc.olen,
                       olen := s.enc.olen + 2 }
              outMem := t.outMem, fresh := t.fresh } ∧
        t.outByte (s.enc.olen + 1) = s.inByte s.enc.dst ∧
        SameOutputOutside s.enc.olen (s.enc.olen + 2) s t) ∧
    (s.enc.isOpen = true → s.enc.olen + 1 ≤ s.params.outCap →
      ∃ t, emitLiteral s = .go t ∧
        t = { s with
              enc := { s.enc with
                       dst := s.enc.dst + 1, runLen := s.enc.runLen + 1, olen := s.enc.olen + 1 }
              outMem := t.outMem } ∧
        t.outByte s.enc.olen = s.inByte s.enc.dst ∧
        SameOutputOutside s.enc.olen (s.enc.olen + 1) s t) ∧
    (s.enc.olen = s.params.outCap ∨ (s.enc.isOpen = false ∧ s.enc.olen + 1 = s.params.outCap) →
      ∃ t, emitLiteral s = .raised t ∧ statusState t.status = .error ∧ statusCause t.status = 5 ∧
        t.errSrc = s.enc.dst)

/-- R123: EmitMatch closes an open run, appends the header `0x80 | (L - 2)` and the distance byte, and advances `E.dst` by
the length; it raises OUTPUT_OVERFLOW at `E.dst` when a byte does not fit. -/
def Obligations.EmitMatchAppendsBackReference : Prop :=
  ∀ (len src : Nat) (s : State), 2 ≤ len → len ≤ 129 → src < s.enc.dst → s.enc.dst ≤ src + 256 →
    (s.enc.isOpen = true → ∃ h, s.enc.hdr = some h ∧ h < s.enc.olen) →
    (s.enc.isOpen = false → s.enc.hdr = none) →
    (s.enc.olen + 2 ≤ s.params.outCap →
      ∃ t, emitMatch len src s = .go t ∧
        t = { s with
              enc := { dst := s.enc.dst + len, isOpen := false, runLen := s.enc.runLen, hdr := none,
                       olen := s.enc.olen + 2 }
              outMem := t.outMem } ∧
        (t.outByte s.enc.olen).toNat = 128 + (len - 2) ∧
        ((t.outByte (s.enc.olen + 1)).toNat : Int) = (src : Int) - s.enc.dst + 256 ∧
        (∀ h, s.enc.isOpen = true → s.enc.hdr = some h → t.outByte h = BitVec.ofNat 8 s.enc.runLen) ∧
        (∀ a, a ≠ s.enc.olen → a ≠ s.enc.olen + 1 → ¬ (s.enc.isOpen = true ∧ s.enc.hdr = some a) →
          t.outByte a = s.outByte a)) ∧
    (s.enc.olen = s.params.outCap ∨ s.enc.olen + 1 = s.params.outCap →
      ∃ t, emitMatch len src s = .raised t ∧ statusState t.status = .error ∧ statusCause t.status = 5 ∧
        t.errSrc = s.enc.dst)

/-- R127: Finish closes an open run, appends END, and completes: `OUT_LEN` is the final `E.olen`, `STATE` DONE; it raises
OUTPUT_OVERFLOW at `E.dst` when END does not fit. -/
def Obligations.FinishAppendsTerminator : Prop :=
  ∀ s : State,
    (s.enc.isOpen = true → ∃ h, s.enc.hdr = some h ∧ h < s.enc.olen) →
    (s.enc.isOpen = false → s.enc.hdr = none) →
    (s.enc.olen < s.params.outCap →
      ∃ t, finishEncode s = .go t ∧
        t = { s with
              enc := { s.enc with isOpen := false, hdr := none, olen := s.enc.olen + 1 }
              outMem := t.outMem, outLen := s.enc.olen + 1, status := t.status } ∧
        statusState t.status = .done ∧ t.status &&& 0xFC#8 = s.status &&& 0xFC#8 ∧
        t.outByte s.enc.olen = 0x00#8 ∧
        (∀ h, s.enc.isOpen = true → s.enc.hdr = some h → t.outByte h = BitVec.ofNat 8 s.enc.runLen) ∧
        (∀ a, a ≠ s.enc.olen → ¬ (s.enc.isOpen = true ∧ s.enc.hdr = some a) → t.outByte a = s.outByte a)) ∧
    (s.enc.olen = s.params.outCap →
      ∃ t, finishEncode s = .raised t ∧ statusState t.status = .error ∧ statusCause t.status = 5 ∧
        t.errSrc = s.enc.dst)

/-! ## The machine as a whole -/

/-- From every state that meets the invariant, whatever the host does, a step gives a state that meets it: every register
in its stated range (R9, R20, R28 to R37), both memories canonical and in bounds (R50, R57), OUT written exactly below
the write cursor (R62), the open run's header in place (R31). What parameters are well formed is DEDUCED (log entry 3); that
the event a memory's unwritten bytes stand for is an earlier one than the next is the model's own (log entry 6). -/
def Obligations.StepKeepsInvariant : Prop :=
  ∀ s t : State, Inv s → step s = .next t → Inv t

/-- R121, R182: from every state of a running Encoder that meets the invariant, a step of the block neither faults nor is
refused: it advances `E.dst`, or completes, or raises OUTPUT_OVERFLOW at `E.dst`, the one error left. -/
def Obligations.EncoderStepAdvancesOrEnds : Prop :=
  ∀ s : State, Inv s → s.encoding = true →
    ∃ t, blockStep s = .next t ∧
      ((t.encoding = true ∧ s.enc.dst < t.enc.dst ∧ t.enc.dst ≤ s.inLen ∧ s.enc.olen ≤ t.enc.olen) ∨
       (statusState t.status = .done ∧ s.enc.dst = s.inLen) ∨
       (statusState t.status = .error ∧ statusCause t.status = 5 ∧ t.errSrc = s.enc.dst))

/-- R151, R157, R62: a step of a running Decoder that takes no error completes or advances `D.src`, and writes OUT only
from `D.dst` on. -/
def Obligations.DecoderStepAdvancesOrEnds : Prop :=
  ∀ s t : State, s.decoding = true → blockStep s = .next t →
    statusState t.status = .error ∨
    ((statusState t.status = .done ∧ t.dec = s.dec ∨ t.decoding = true ∧ s.dec.src + 2 ≤ t.dec.src) ∧
      s.dec.dst ≤ t.dec.dst ∧ SameOutputOutside s.dec.dst t.dec.dst s t)

/-- R209: "Every operation ends, in DONE or ERROR", after at most `n + 1` steps of the block, with no fault and no
refusal. That a step is one token or one iteration is the model's choice (log entry 10). -/
def Obligations.EveryOperationEnds : Prop :=
  ∀ s : State, Inv s → s.busy = true → ∃ k t, k ≤ s.inLen + 1 ∧ runBlock k s = .next t ∧ t.ended

/-- R22: how `STATE` moves: to BUSY, or at once to ERROR, only on a command; from BUSY only to DONE or ERROR; to IDLE
only at reset. -/
def Obligations.StateMovesOnlyAsStated : Prop :=
  ∀ s t : State, step s = .next t →
    statusState t.status = statusState s.status ∨
    (s.busy = true ∧ t.ended) ∨
    (s.busy = false ∧ (∃ v rest, s.host = .writeReg .cmd v :: rest) ∧
      (statusState t.status = .busy ∨ statusState t.status = .error)) ∨
    ((∃ rest, s.host = .reset :: rest) ∧ statusState t.status = .idle)

/-- R25: `ERR_SRC` changes only when an error is taken, by the running operation or at once by a command, and at reset,
which makes it 0. -/
def Obligations.ErrSrcChangesOnlyOnErrorOrReset : Prop :=
  ∀ s t : State, step s = .next t →
    t.errSrc = s.errSrc ∨
    (statusState t.status = .error ∧ (s.busy = true ∨ ∃ v rest, s.host = .writeReg .cmd v :: rest)) ∨
    ((∃ rest, s.host = .reset :: rest) ∧ t.errSrc = 0)

/-- R7: no step changes a parameter. That the parameters are a field no step changes is DEDUCED (log entry 1), and this
states it. -/
def Obligations.ParametersAreConstant : Prop :=
  ∀ s t : State, step s = .next t → t.params = s.params

/-- R61, R23, R51: the block never writes IN or `IN_LEN`, and does not touch what belongs to the host. -/
def Obligations.BlockNeverWritesInput : Prop :=
  ∀ s t : State, blockStep s = .next t →
    t.inMem = s.inMem ∧ t.inByte = s.inByte ∧ t.inLen = s.inLen ∧ t.host = s.host ∧ t.readData = s.readData

/-- R39: the result of an operation does not depend on any agent register's value, or on OUT or `OUT_LEN`, before the
command. -/
def Obligations.ResultIndependentOfEarlierState : Prop :=
  ∀ (i : Instr) (s u t : State) (k : Nat) (e : Encoder) (f : Finder) (d : Decoder) (m : Memory) (epoch len : Nat),
    i = .cmdEncode ∨ i = .cmdDecode → exec i s = .next u → runBlock k u = .next t →
    ∃ u' t',
      exec i { s with enc := e, fnd := f, dec := d, outMem := m, outEpoch := epoch, outLen := len } = .next u' ∧
      runBlock k u' = .next t' ∧
      t'.status = t.status ∧ t'.outLen = t.outLen ∧ t'.errSrc = t.errSrc ∧ t'.outMem = t.outMem ∧
      t'.outByte = t.outByte

/-- R132: for every input the Encoder completes on, DECODE of its output completes and yields the input. -/
def Obligations.DecodeOfEncodeYieldsInput : Prop :=
  ∀ s t s' : State, Inv s → s.busy = false → Completes .cmdEncode s t →
    Inv s' → s'.busy = false → s'.input = t.output → t.outLen ≤ s'.params.inCap → s.inLen ≤ s'.params.outCap →
    ∃ t', Completes .cmdDecode s' t' ∧ t'.output = s.input

/-- R130: the Encoder's output is a well-formed stream whose last byte is its only END; and each MATCH in it has a length
the Match Finder may report (R79). -/
def Obligations.EncoderOutputIsStream : Prop :=
  ∀ s t : State, Inv s → s.busy = false → Completes .cmdEncode s t →
    ∃ tokens, decodeStream (t.outLen + 1) t.output = some (tokens, []) ∧
      ∀ m d, .tokMatch m d ∈ tokens → m.toNat + 2 < s.params.matchLimit

/-- R131: the output of ENCODE has at most `n + ceil(n/127) + 1` bytes, and with that much room ENCODE completes. -/
def Obligations.EncoderOutputIsBounded : Prop :=
  ∀ s : State, Inv s → s.busy = false → 3 ≤ s.params.acceptMinOpen →
    (∀ t, Completes .cmdEncode s t → t.outLen ≤ s.inLen + (s.inLen + 126) / 127 + 1) ∧
    (s.inLen ≤ s.params.inCap → s.inLen + (s.inLen + 126) / 127 + 1 ≤ s.params.outCap →
      ∃ t, Completes .cmdEncode s t)

/-- R158, R152: a stream that completes is well formed up to its first END, and `OUT_LEN` is the sum of `L` over its LIT
tokens and `len` over its MATCH tokens. -/
def Obligations.DecodedLengthIsSumOfTokens : Prop :=
  ∀ s t : State, Inv s → s.busy = false → Completes .cmdDecode s t →
    ∃ tokens rest, decodeStream (s.inLen + 1) s.input = some (tokens, rest) ∧
      t.outLen = (tokens.map outputLength).sum

/-! ## The host -/

/-- R187: the host actions that have no meaning are refused. -/
def Obligations.MeaninglessHostActionsRefused : Prop :=
  ∀ (s : State) (rest : List HostAction),
    (s.busy = true → ∀ v : Byte, v ≤ 0x01#8 → s.host = .writeReg .cmd v.toNat :: rest →
      step s = .refused .commandWhileBusy) ∧
    (∀ v : Byte, 0x02#8 ≤ v → s.host = .writeReg .cmd v.toNat :: rest → step s = .refused .reservedCommandBits) ∧
    (∀ r v, r ≠ .cmd → r ≠ .inLen → s.host = .writeReg r v :: rest → step s = .refused .readOnlyRegister) ∧
    (s.busy = true → ∀ v, s.host = .writeReg .inLen v :: rest → step s = .refused .writeWhileBusy) ∧
    (s.busy = true → ∀ a v, s.host = .writeIn a v :: rest → step s = .refused .writeWhileBusy) ∧
    (s.busy = true → ∀ a v, s.host = .writeOut a v :: rest → step s = .refused .writeWhileBusy) ∧
    (s.busy = true → ∀ a, s.host = .readOut a :: rest → step s = .refused .readOutWhileBusy)

/-- R20 to R26: what each register reads as while no operation runs; a read has no side effect (R55). -/
def Obligations.RegistersReadAsStated : Prop :=
  ∀ (s : State) (rest : List HostAction) (r : HostReg), s.busy = false → s.host = .readReg r :: rest →
    step s = .next { s with
      host := rest
      readData := some (match r with
        | .cmd => 0
        | .status => s.status.toNat
        | .inLen => s.inLen
        | .outLen => s.outLen
        | .errSrc => s.errSrc
        | .inCapR => s.params.inCap
        | .outCapR => s.params.outCap) }

/-- R27: while BUSY, `STATUS` reads with `STATE = BUSY`, and any other register, `CMD` among them (log
entry 13), reads as some value of its width. -/
def Obligations.OnlyStatusReadsAsItIsWhileBusy : Prop :=
  ∀ (s : State) (rest : List HostAction), s.busy = true →
    (s.host = .readReg .status :: rest →
      step s = .next { s with host := rest, readData := some s.status.toNat } ∧ statusState s.status = .busy) ∧
    (∀ r, r ≠ .status → s.host = .readReg r :: rest →
      ∃ v, v < 2 ^ (if r = .cmd then 8 else s.params.cursorBits) ∧
        step s = .next { s with host := rest, readData := some v, fresh := s.fresh + 1 })

/-- R20, R50, R55: a host write of `IN_LEN`, IN or OUT while no operation runs takes effect there and nowhere else, and a
host read of a byte gives it: of OUT while no operation runs, of IN at any time. That the host may write OUT, and may
read IN, BUSY or not, is DEDUCED, the model's reading of R187 (log entry 15). -/
def Obligations.HostAccessesTakeEffect : Prop :=
  ∀ (s : State) (rest : List HostAction),
    (s.busy = false → ∀ v, v < 2 ^ s.params.cursorBits → s.host = .writeReg .inLen v :: rest →
      step s = .next { s with host := rest, inLen := v }) ∧
    (s.busy = false → ∀ a v, a < s.params.inCap → s.host = .writeIn a v :: rest →
      ∃ t, step s = .next t ∧ t = { s with host := rest, inMem := t.inMem } ∧ t.inByte a = v ∧
        ∀ b, b ≠ a → t.inByte b = s.inByte b) ∧
    (s.busy = false → ∀ a v, a < s.params.outCap → s.host = .writeOut a v :: rest →
      ∃ t, step s = .next t ∧ t = { s with host := rest, outMem := t.outMem } ∧ t.outByte a = v ∧
        ∀ b, b ≠ a → t.outByte b = s.outByte b) ∧
    (s.busy = false → ∀ a, a < s.params.outCap → s.host = .readOut a :: rest →
      step s = .next { s with host := rest, readData := some (s.outByte a).toNat }) ∧
    (∀ a, a < s.params.inCap → s.host = .readIn a :: rest →
      step s = .next { s with host := rest, readData := some (s.inByte a).toNat })

/-- R200, R201: a reset at any time gives the host registers their reset values, abandons a running operation, and leaves
no byte of IN or OUT known. The host's pending actions and what it has read are the model's own and stay (log entry 7). -/
def Obligations.HostResetReinitialises : Prop :=
  ∀ (s : State) (rest : List HostAction), s.host = .reset :: rest →
    ∃ t, step s = .next t ∧ t.status = 0x00#8 ∧ t.inLen = 0 ∧ t.outLen = 0 ∧ t.errSrc = 0 ∧
      t.params = s.params ∧ t.inMem = [] ∧ t.outMem = [] ∧ t.host = rest ∧ t.readData = s.readData

/-! ## Unspecified contents -/

/-- R59, R201, R184: a command, an error and a reset leave OUT, and a reset IN, to values drawn anew: each byte is the free
value of a later event than the one the memory stood for before, so nothing follows of it from what was there. How the
events are numbered is the model's choice (log entries 5 and 6). -/
def Obligations.UnspecifiedContentsAreDrawnAnew : Prop :=
  ∀ s : State, Inv s →
    (∀ i t, i = .cmdEncode ∨ i = .cmdDecode → exec i s = .next t →
      s.outEpoch < t.outEpoch ∧ ∀ a, t.outByte a = Config.unwrittenOut t.outEpoch a) ∧
    (∀ c pos, s.outEpoch < (takeError c pos s).outEpoch ∧
      ∀ a, (takeError c pos s).outByte a = Config.unwrittenOut (takeError c pos s).outEpoch a) ∧
    (∀ rest, s.host = .reset :: rest → ∃ t, step s = .next t ∧
      s.inEpoch < t.inEpoch ∧ s.outEpoch < t.outEpoch ∧
      ∀ a, t.inByte a = Config.unwrittenIn t.inEpoch a ∧ t.outByte a = Config.unwrittenOut t.outEpoch a)
end

