-- ==== Sys2Proof/Laws/Decode.lean ====
section
/-! SUPPORT. The fields of the header bytes the encoder of instructions writes (30_encoding.md R71). -/

namespace Sys2Proof

@[simp] theorem headerField_matchHeader (m : BitVec 7) : headerField (matchHeader m) = m := by
  revert m; decide

@[simp] theorem headerBit7_matchHeader (m : BitVec 7) : headerBit7 (matchHeader m) = true := by
  revert m; decide

theorem matchHeader_ne_terminator (m : BitVec 7) : matchHeader m ≠ Config.terminator := by
  revert m; decide

/-- A LIT header for 1 to `LIT_MAX` bytes: not the terminator, bit 7 clear, the count in bits 6:0. -/
theorem litHeader_spec {count : Nat} (h1 : 1 ≤ count) (h2 : count ≤ Config.litMax) :
    litHeader count ≠ Config.terminator ∧ headerBit7 (litHeader count) = false ∧
      (headerField (litHeader count)).toNat = count := by
  have key : ∀ k : Fin 128, k.val ≠ 0 → litHeader k.val ≠ Config.terminator ∧
      headerBit7 (litHeader k.val) = false ∧ (headerField (litHeader k.val)).toNat = k.val := by decide
  exact key ⟨count, Nat.lt_succ_of_le h2⟩ (by show count ≠ 0; omega)

/-- A header that is not the terminator and has bit 7 clear is the LIT header of its count, 1 to `LIT_MAX`. -/
theorem litHeader_headerField {h : Byte} (h0 : h ≠ Config.terminator) (h7 : headerBit7 h = false) :
    litHeader (headerField h).toNat = h ∧ 1 ≤ (headerField h).toNat ∧
      (headerField h).toNat ≤ Config.litMax := by
  revert h; decide

/-- A header with bit 7 set is the MATCH header of its field. -/
theorem matchHeader_headerField {h : Byte} (h7 : headerBit7 h = true) : matchHeader (headerField h) = h := by
  revert h; decide

end Sys2Proof
end

