-- ==== Sys2Proof/Laws/Flags.lean ====
section
/-! SUPPORT. The fields of `STATUS` after each of its updates, and that the updates keep `StatusOk`. -/

namespace Sys2Proof.Machine

@[simp] theorem statusState_setStatusState (x : RunState) (w : Byte) :
    statusState (setStatusState x w) = x := by
  cases x <;> revert w <;> decide

@[simp] theorem statusState_setStatusOp (x : Op) (w : Byte) :
    statusState (setStatusOp x w) = statusState w := by
  cases x <;> revert w <;> decide

@[simp] theorem statusState_setStatusCause (c : Cause) (w : Byte) :
    statusState (setStatusCause c w) = statusState w := by
  cases c <;> revert w <;> decide

@[simp] theorem statusOp_setStatusState (x : RunState) (w : Byte) :
    statusOp (setStatusState x w) = statusOp w := by
  cases x <;> revert w <;> decide

@[simp] theorem statusOp_setStatusOp (x : Op) (w : Byte) : statusOp (setStatusOp x w) = x := by
  cases x <;> revert w <;> decide

@[simp] theorem statusOp_setStatusCause (c : Cause) (w : Byte) :
    statusOp (setStatusCause c w) = statusOp w := by
  cases c <;> revert w <;> decide

@[simp] theorem statusCause_setStatusState (x : RunState) (w : Byte) :
    statusCause (setStatusState x w) = statusCause w := by
  cases x <;> revert w <;> decide

@[simp] theorem statusCause_setStatusOp (x : Op) (w : Byte) :
    statusCause (setStatusOp x w) = statusCause w := by
  cases x <;> revert w <;> decide

@[simp] theorem statusCause_setStatusCause (c : Cause) (w : Byte) :
    statusCause (setStatusCause c w) = causeCode c := by
  cases c <;> revert w <;> decide

/-- The reserved bits 3 and 7 keep their value under every update. -/
@[simp] theorem reserved_setStatusState (x : RunState) (w : Byte) :
    setStatusState x w &&& 0x88#8 = w &&& 0x88#8 := by
  cases x <;> revert w <;> decide

@[simp] theorem reserved_setStatusOp (x : Op) (w : Byte) :
    setStatusOp x w &&& 0x88#8 = w &&& 0x88#8 := by
  cases x <;> revert w <;> decide

@[simp] theorem reserved_setStatusCause (c : Cause) (w : Byte) :
    setStatusCause c w &&& 0x88#8 = w &&& 0x88#8 := by
  cases c <;> revert w <;> decide

theorem causeCode_ne_seven (c : Cause) : causeCode c ≠ 7 := by cases c <;> decide

theorem causeCode_eq_zero {c : Cause} : causeCode c = 0 ↔ c = .none := by cases c <;> decide

/-- `STATUS` is its three fields when the reserved bits read 0. -/
theorem status_ext {v w : Byte} (hv : v &&& 0x88#8 = 0#8) (hw : w &&& 0x88#8 = 0#8)
    (h1 : statusState v = statusState w) (h2 : statusOp v = statusOp w) (h3 : statusCause v = statusCause w) :
    v = w := by
  have key : ∀ v : Byte, v &&& 0x88#8 = 0#8 →
      v = BitVec.ofNat 8 (stateCode (statusState v) + opCode (statusOp v) * 4 + statusCause v * 16) := by
    decide
  rw [key v hv, key w hw, h1, h2, h3]

/-! ## `StatusOk` -/

theorem statusOk_error {w : Byte} (c : Cause) (h : StatusOk w) (hc : c ≠ .none) :
    StatusOk (setStatusState .error (setStatusCause c w)) :=
  ⟨by simpa using h.1, by simpa using causeCode_ne_seven c, by simpa [causeCode_eq_zero] using hc⟩

theorem statusOk_start {w : Byte} (op : Op) (h : StatusOk w) :
    StatusOk (setStatusCause .none (setStatusOp op (setStatusState .busy w))) :=
  ⟨by simpa using h.1, by simp [causeCode], by simp [causeCode]⟩

theorem statusOk_done {w : Byte} (h : StatusOk w) (hb : statusState w = .busy) :
    StatusOk (setStatusState .done w) :=
  ⟨by simpa using h.1, by simpa using h.2.1, by
    have : statusCause w = 0 := by
      by_contra hc
      have := h.2.2.2 hc
      rw [hb] at this; cases this
    simp [this]⟩

/-! ## Who runs -/

theorem busy_iff (s : State) : s.busy = true ↔ statusState s.status = .busy := by simp [State.busy]

theorem encoding_iff (s : State) :
    s.encoding = true ↔ statusState s.status = .busy ∧ statusOp s.status = .encode := by
  simp [State.encoding, State.busy]

theorem decoding_iff (s : State) :
    s.decoding = true ↔ statusState s.status = .busy ∧ statusOp s.status = .decode := by
  simp [State.decoding, State.busy]

/-- A BUSY block runs exactly one of its two agents. -/
theorem busy_cases {s : State} (h : s.busy = true) :
    (s.encoding = true ∧ s.decoding = false) ∨ (s.encoding = false ∧ s.decoding = true) := by
  simp only [State.encoding, State.decoding, h]
  cases statusOp s.status <;> simp

theorem not_busy_agents {s : State} (h : s.busy = false) : s.encoding = false ∧ s.decoding = false := by
  simp [State.encoding, State.decoding, h]

end Sys2Proof.Machine
end

