-- ==== Sys2Proof/Laws/State.lean ====
section
/-! SUPPORT. One lemma per field per named update of State, true by rfl, so that no later proof unfolds an update. -/

namespace Sys2Proof.Machine

/-! ## `storeOut` -/
@[simp] theorem storeOut_params (s : State) (a : Nat) (v : Byte) : (s.storeOut a v).params = s.params := rfl
@[simp] theorem storeOut_status (s : State) (a : Nat) (v : Byte) : (s.storeOut a v).status = s.status := rfl
@[simp] theorem storeOut_inLen (s : State) (a : Nat) (v : Byte) : (s.storeOut a v).inLen = s.inLen := rfl
@[simp] theorem storeOut_outLen (s : State) (a : Nat) (v : Byte) : (s.storeOut a v).outLen = s.outLen := rfl
@[simp] theorem storeOut_errSrc (s : State) (a : Nat) (v : Byte) : (s.storeOut a v).errSrc = s.errSrc := rfl
@[simp] theorem storeOut_enc (s : State) (a : Nat) (v : Byte) : (s.storeOut a v).enc = s.enc := rfl
@[simp] theorem storeOut_fnd (s : State) (a : Nat) (v : Byte) : (s.storeOut a v).fnd = s.fnd := rfl
@[simp] theorem storeOut_dec (s : State) (a : Nat) (v : Byte) : (s.storeOut a v).dec = s.dec := rfl
@[simp] theorem storeOut_inMem (s : State) (a : Nat) (v : Byte) : (s.storeOut a v).inMem = s.inMem := rfl
@[simp] theorem storeOut_outMem (s : State) (a : Nat) (v : Byte) : (s.storeOut a v).outMem = writeCell s.outMem a v := rfl
@[simp] theorem storeOut_inEpoch (s : State) (a : Nat) (v : Byte) : (s.storeOut a v).inEpoch = s.inEpoch := rfl
@[simp] theorem storeOut_outEpoch (s : State) (a : Nat) (v : Byte) : (s.storeOut a v).outEpoch = s.outEpoch := rfl
@[simp] theorem storeOut_fresh (s : State) (a : Nat) (v : Byte) : (s.storeOut a v).fresh = s.fresh := rfl
@[simp] theorem storeOut_host (s : State) (a : Nat) (v : Byte) : (s.storeOut a v).host = s.host := rfl
@[simp] theorem storeOut_readData (s : State) (a : Nat) (v : Byte) : (s.storeOut a v).readData = s.readData := rfl

/-! ## `storeIn` -/
@[simp] theorem storeIn_params (s : State) (a : Nat) (v : Byte) : (s.storeIn a v).params = s.params := rfl
@[simp] theorem storeIn_status (s : State) (a : Nat) (v : Byte) : (s.storeIn a v).status = s.status := rfl
@[simp] theorem storeIn_inLen (s : State) (a : Nat) (v : Byte) : (s.storeIn a v).inLen = s.inLen := rfl
@[simp] theorem storeIn_outLen (s : State) (a : Nat) (v : Byte) : (s.storeIn a v).outLen = s.outLen := rfl
@[simp] theorem storeIn_errSrc (s : State) (a : Nat) (v : Byte) : (s.storeIn a v).errSrc = s.errSrc := rfl
@[simp] theorem storeIn_enc (s : State) (a : Nat) (v : Byte) : (s.storeIn a v).enc = s.enc := rfl
@[simp] theorem storeIn_fnd (s : State) (a : Nat) (v : Byte) : (s.storeIn a v).fnd = s.fnd := rfl
@[simp] theorem storeIn_dec (s : State) (a : Nat) (v : Byte) : (s.storeIn a v).dec = s.dec := rfl
@[simp] theorem storeIn_inMem (s : State) (a : Nat) (v : Byte) : (s.storeIn a v).inMem = writeCell s.inMem a v := rfl
@[simp] theorem storeIn_outMem (s : State) (a : Nat) (v : Byte) : (s.storeIn a v).outMem = s.outMem := rfl
@[simp] theorem storeIn_inEpoch (s : State) (a : Nat) (v : Byte) : (s.storeIn a v).inEpoch = s.inEpoch := rfl
@[simp] theorem storeIn_outEpoch (s : State) (a : Nat) (v : Byte) : (s.storeIn a v).outEpoch = s.outEpoch := rfl
@[simp] theorem storeIn_fresh (s : State) (a : Nat) (v : Byte) : (s.storeIn a v).fresh = s.fresh := rfl
@[simp] theorem storeIn_host (s : State) (a : Nat) (v : Byte) : (s.storeIn a v).host = s.host := rfl
@[simp] theorem storeIn_readData (s : State) (a : Nat) (v : Byte) : (s.storeIn a v).readData = s.readData := rfl

/-! ## `setEnc` -/
@[simp] theorem setEnc_params (s : State) (e : Encoder) : (s.setEnc e).params = s.params := rfl
@[simp] theorem setEnc_status (s : State) (e : Encoder) : (s.setEnc e).status = s.status := rfl
@[simp] theorem setEnc_inLen (s : State) (e : Encoder) : (s.setEnc e).inLen = s.inLen := rfl
@[simp] theorem setEnc_outLen (s : State) (e : Encoder) : (s.setEnc e).outLen = s.outLen := rfl
@[simp] theorem setEnc_errSrc (s : State) (e : Encoder) : (s.setEnc e).errSrc = s.errSrc := rfl
@[simp] theorem setEnc_enc (s : State) (e : Encoder) : (s.setEnc e).enc = e := rfl
@[simp] theorem setEnc_fnd (s : State) (e : Encoder) : (s.setEnc e).fnd = s.fnd := rfl
@[simp] theorem setEnc_dec (s : State) (e : Encoder) : (s.setEnc e).dec = s.dec := rfl
@[simp] theorem setEnc_inMem (s : State) (e : Encoder) : (s.setEnc e).inMem = s.inMem := rfl
@[simp] theorem setEnc_outMem (s : State) (e : Encoder) : (s.setEnc e).outMem = s.outMem := rfl
@[simp] theorem setEnc_inEpoch (s : State) (e : Encoder) : (s.setEnc e).inEpoch = s.inEpoch := rfl
@[simp] theorem setEnc_outEpoch (s : State) (e : Encoder) : (s.setEnc e).outEpoch = s.outEpoch := rfl
@[simp] theorem setEnc_fresh (s : State) (e : Encoder) : (s.setEnc e).fresh = s.fresh := rfl
@[simp] theorem setEnc_host (s : State) (e : Encoder) : (s.setEnc e).host = s.host := rfl
@[simp] theorem setEnc_readData (s : State) (e : Encoder) : (s.setEnc e).readData = s.readData := rfl

/-! ## `setFnd` -/
@[simp] theorem setFnd_params (s : State) (f : Finder) : (s.setFnd f).params = s.params := rfl
@[simp] theorem setFnd_status (s : State) (f : Finder) : (s.setFnd f).status = s.status := rfl
@[simp] theorem setFnd_inLen (s : State) (f : Finder) : (s.setFnd f).inLen = s.inLen := rfl
@[simp] theorem setFnd_outLen (s : State) (f : Finder) : (s.setFnd f).outLen = s.outLen := rfl
@[simp] theorem setFnd_errSrc (s : State) (f : Finder) : (s.setFnd f).errSrc = s.errSrc := rfl
@[simp] theorem setFnd_enc (s : State) (f : Finder) : (s.setFnd f).enc = s.enc := rfl
@[simp] theorem setFnd_fnd (s : State) (f : Finder) : (s.setFnd f).fnd = f := rfl
@[simp] theorem setFnd_dec (s : State) (f : Finder) : (s.setFnd f).dec = s.dec := rfl
@[simp] theorem setFnd_inMem (s : State) (f : Finder) : (s.setFnd f).inMem = s.inMem := rfl
@[simp] theorem setFnd_outMem (s : State) (f : Finder) : (s.setFnd f).outMem = s.outMem := rfl
@[simp] theorem setFnd_inEpoch (s : State) (f : Finder) : (s.setFnd f).inEpoch = s.inEpoch := rfl
@[simp] theorem setFnd_outEpoch (s : State) (f : Finder) : (s.setFnd f).outEpoch = s.outEpoch := rfl
@[simp] theorem setFnd_fresh (s : State) (f : Finder) : (s.setFnd f).fresh = s.fresh := rfl
@[simp] theorem setFnd_host (s : State) (f : Finder) : (s.setFnd f).host = s.host := rfl
@[simp] theorem setFnd_readData (s : State) (f : Finder) : (s.setFnd f).readData = s.readData := rfl

/-! ## `setDec` -/
@[simp] theorem setDec_params (s : State) (d : Decoder) : (s.setDec d).params = s.params := rfl
@[simp] theorem setDec_status (s : State) (d : Decoder) : (s.setDec d).status = s.status := rfl
@[simp] theorem setDec_inLen (s : State) (d : Decoder) : (s.setDec d).inLen = s.inLen := rfl
@[simp] theorem setDec_outLen (s : State) (d : Decoder) : (s.setDec d).outLen = s.outLen := rfl
@[simp] theorem setDec_errSrc (s : State) (d : Decoder) : (s.setDec d).errSrc = s.errSrc := rfl
@[simp] theorem setDec_enc (s : State) (d : Decoder) : (s.setDec d).enc = s.enc := rfl
@[simp] theorem setDec_fnd (s : State) (d : Decoder) : (s.setDec d).fnd = s.fnd := rfl
@[simp] theorem setDec_dec (s : State) (d : Decoder) : (s.setDec d).dec = d := rfl
@[simp] theorem setDec_inMem (s : State) (d : Decoder) : (s.setDec d).inMem = s.inMem := rfl
@[simp] theorem setDec_outMem (s : State) (d : Decoder) : (s.setDec d).outMem = s.outMem := rfl
@[simp] theorem setDec_inEpoch (s : State) (d : Decoder) : (s.setDec d).inEpoch = s.inEpoch := rfl
@[simp] theorem setDec_outEpoch (s : State) (d : Decoder) : (s.setDec d).outEpoch = s.outEpoch := rfl
@[simp] theorem setDec_fresh (s : State) (d : Decoder) : (s.setDec d).fresh = s.fresh := rfl
@[simp] theorem setDec_host (s : State) (d : Decoder) : (s.setDec d).host = s.host := rfl
@[simp] theorem setDec_readData (s : State) (d : Decoder) : (s.setDec d).readData = s.readData := rfl

/-! ## `completeOperation` -/
@[simp] theorem completeOperation_params (s : State) (len : Nat) : (completeOperation len s).params = s.params := rfl
@[simp] theorem completeOperation_status (s : State) (len : Nat) : (completeOperation len s).status = setStatusState .done s.status := rfl
@[simp] theorem completeOperation_inLen (s : State) (len : Nat) : (completeOperation len s).inLen = s.inLen := rfl
@[simp] theorem completeOperation_outLen (s : State) (len : Nat) : (completeOperation len s).outLen = len := rfl
@[simp] theorem completeOperation_errSrc (s : State) (len : Nat) : (completeOperation len s).errSrc = s.errSrc := rfl
@[simp] theorem completeOperation_enc (s : State) (len : Nat) : (completeOperation len s).enc = s.enc := rfl
@[simp] theorem completeOperation_fnd (s : State) (len : Nat) : (completeOperation len s).fnd = s.fnd := rfl
@[simp] theorem completeOperation_dec (s : State) (len : Nat) : (completeOperation len s).dec = s.dec := rfl
@[simp] theorem completeOperation_inMem (s : State) (len : Nat) : (completeOperation len s).inMem = s.inMem := rfl
@[simp] theorem completeOperation_outMem (s : State) (len : Nat) : (completeOperation len s).outMem = s.outMem := rfl
@[simp] theorem completeOperation_inEpoch (s : State) (len : Nat) : (completeOperation len s).inEpoch = s.inEpoch := rfl
@[simp] theorem completeOperation_outEpoch (s : State) (len : Nat) : (completeOperation len s).outEpoch = s.outEpoch := rfl
@[simp] theorem completeOperation_fresh (s : State) (len : Nat) : (completeOperation len s).fresh = s.fresh := rfl
@[simp] theorem completeOperation_host (s : State) (len : Nat) : (completeOperation len s).host = s.host := rfl
@[simp] theorem completeOperation_readData (s : State) (len : Nat) : (completeOperation len s).readData = s.readData := rfl

/-! ## `startOperation` -/
@[simp] theorem startOperation_params (s : State) (op : Op) : (startOperation op s).params = s.params := rfl
@[simp] theorem startOperation_status (s : State) (op : Op) : (startOperation op s).status = setStatusCause .none (setStatusOp op (setStatusState .busy s.status)) := rfl
@[simp] theorem startOperation_inLen (s : State) (op : Op) : (startOperation op s).inLen = s.inLen := rfl
@[simp] theorem startOperation_outLen (s : State) (op : Op) : (startOperation op s).outLen = freeCursor s.params s.fresh 0 := rfl
@[simp] theorem startOperation_errSrc (s : State) (op : Op) : (startOperation op s).errSrc = s.errSrc := rfl
@[simp] theorem startOperation_enc (s : State) (op : Op) : (startOperation op s).enc = s.enc := rfl
@[simp] theorem startOperation_fnd (s : State) (op : Op) : (startOperation op s).fnd = s.fnd := rfl
@[simp] theorem startOperation_dec (s : State) (op : Op) : (startOperation op s).dec = s.dec := rfl
@[simp] theorem startOperation_inMem (s : State) (op : Op) : (startOperation op s).inMem = s.inMem := rfl
@[simp] theorem startOperation_outMem (s : State) (op : Op) : (startOperation op s).outMem = [] := rfl
@[simp] theorem startOperation_inEpoch (s : State) (op : Op) : (startOperation op s).inEpoch = s.inEpoch := rfl
@[simp] theorem startOperation_outEpoch (s : State) (op : Op) : (startOperation op s).outEpoch = s.fresh := rfl
@[simp] theorem startOperation_fresh (s : State) (op : Op) : (startOperation op s).fresh = s.fresh + 1 := rfl
@[simp] theorem startOperation_host (s : State) (op : Op) : (startOperation op s).host = s.host := rfl
@[simp] theorem startOperation_readData (s : State) (op : Op) : (startOperation op s).readData = s.readData := rfl

/-! ## `takeError` -/
@[simp] theorem takeError_params (s : State) (c : Cause) (pos : Nat) : (takeError c pos s).params = s.params := rfl
@[simp] theorem takeError_status (s : State) (c : Cause) (pos : Nat) : (takeError c pos s).status = setStatusState .error (setStatusCause c s.status) := rfl
@[simp] theorem takeError_inLen (s : State) (c : Cause) (pos : Nat) : (takeError c pos s).inLen = s.inLen := rfl
@[simp] theorem takeError_outLen (s : State) (c : Cause) (pos : Nat) : (takeError c pos s).outLen = freeCursor s.params s.fresh 0 := rfl
@[simp] theorem takeError_errSrc (s : State) (c : Cause) (pos : Nat) : (takeError c pos s).errSrc = pos := rfl
@[simp] theorem takeError_enc (s : State) (c : Cause) (pos : Nat) : (takeError c pos s).enc = freeEncoder s.params s.fresh := rfl
@[simp] theorem takeError_fnd (s : State) (c : Cause) (pos : Nat) : (takeError c pos s).fnd = freeFinder s.params s.fresh := rfl
@[simp] theorem takeError_dec (s : State) (c : Cause) (pos : Nat) : (takeError c pos s).dec = freeDecoder s.params s.fresh := rfl
@[simp] theorem takeError_inMem (s : State) (c : Cause) (pos : Nat) : (takeError c pos s).inMem = s.inMem := rfl
@[simp] theorem takeError_outMem (s : State) (c : Cause) (pos : Nat) : (takeError c pos s).outMem = [] := rfl
@[simp] theorem takeError_inEpoch (s : State) (c : Cause) (pos : Nat) : (takeError c pos s).inEpoch = s.inEpoch := rfl
@[simp] theorem takeError_outEpoch (s : State) (c : Cause) (pos : Nat) : (takeError c pos s).outEpoch = s.fresh := rfl
@[simp] theorem takeError_fresh (s : State) (c : Cause) (pos : Nat) : (takeError c pos s).fresh = s.fresh + 1 := rfl
@[simp] theorem takeError_host (s : State) (c : Cause) (pos : Nat) : (takeError c pos s).host = s.host := rfl
@[simp] theorem takeError_readData (s : State) (c : Cause) (pos : Nat) : (takeError c pos s).readData = s.readData := rfl

/-! ## The bytes of IN and OUT under the updates of other fields -/

@[simp] theorem storeOut_inByte (s : State) (a : Nat) (v : Byte) : (s.storeOut a v).inByte = s.inByte := rfl
@[simp] theorem storeIn_outByte (s : State) (a : Nat) (v : Byte) : (s.storeIn a v).outByte = s.outByte := rfl
@[simp] theorem setEnc_inByte (s : State) (e : Encoder) : (s.setEnc e).inByte = s.inByte := rfl
@[simp] theorem setEnc_outByte (s : State) (e : Encoder) : (s.setEnc e).outByte = s.outByte := rfl
@[simp] theorem setFnd_inByte (s : State) (f : Finder) : (s.setFnd f).inByte = s.inByte := rfl
@[simp] theorem setFnd_outByte (s : State) (f : Finder) : (s.setFnd f).outByte = s.outByte := rfl
@[simp] theorem setDec_inByte (s : State) (d : Decoder) : (s.setDec d).inByte = s.inByte := rfl
@[simp] theorem setDec_outByte (s : State) (d : Decoder) : (s.setDec d).outByte = s.outByte := rfl
@[simp] theorem completeOperation_inByte (s : State) (len : Nat) : (completeOperation len s).inByte = s.inByte := rfl
@[simp] theorem completeOperation_outByte (s : State) (len : Nat) : (completeOperation len s).outByte = s.outByte := rfl
@[simp] theorem startOperation_inByte (s : State) (op : Op) : (startOperation op s).inByte = s.inByte := rfl
@[simp] theorem takeError_inByte (s : State) (c : Cause) (pos : Nat) : (takeError c pos s).inByte = s.inByte := rfl

end Sys2Proof.Machine
end

