-- ==== Sys2Proof/Laws/Memory.lean ====
section
/-! SUPPORT. The laws of the two memories: a read after a write, and that every write keeps the canonical form and stays
within the bound. -/

namespace Sys2Proof.Machine

/-! ## Read after write -/

@[simp] theorem readCell_writeCell_same (m : Memory) (a : Nat) (v : Byte) :
    readCell (writeCell m a v) a = some v := by
  induction m with
  | nil => simp [writeCell, readCell]
  | cons c m ih =>
    obtain ⟨b, w⟩ := c
    simp only [writeCell]
    split
    · simp [readCell]
    · split
      · simp [readCell]
      · simp [readCell, ih, Ne.symm ‹_›]

theorem readCell_writeCell_other (m : Memory) {a b : Nat} (v : Byte) (h : b ≠ a) :
    readCell (writeCell m a v) b = readCell m b := by
  induction m with
  | nil => simp [writeCell, readCell, h.symm]
  | cons c m ih =>
    obtain ⟨k, w⟩ := c
    simp only [writeCell]
    split
    · simp [readCell, h.symm]
    · split
      · subst k; simp [readCell, h.symm]
      · simp [readCell, ih]

/-- Both laws as one equation. -/
theorem readCell_writeCell (m : Memory) (a b : Nat) (v : Byte) :
    readCell (writeCell m a v) b = if b = a then some v else readCell m b := by
  split
  · subst b; simp
  · exact readCell_writeCell_other m v ‹_›

/-- Reading after a run of writes from `a` on. -/
theorem readCell_writeCells (m : Memory) (a b : Nat) (bytes : List Byte) :
    readCell (writeCells m a bytes) b =
      if a ≤ b ∧ b < a + bytes.length then bytes[b - a]? else readCell m b := by
  induction bytes generalizing m a with
  | nil =>
    have : ¬ (a ≤ b ∧ b < a + 0) := by omega
    simp only [writeCells, List.length_nil, if_neg this]
  | cons v bytes ih =>
    simp only [writeCells, ih, readCell_writeCell, List.length_cons]
    by_cases h1 : b = a
    · subst b
      have h2 : ¬ (a + 1 ≤ a ∧ a < a + 1 + bytes.length) := by omega
      have h3 : a ≤ a ∧ a < a + (bytes.length + 1) := by omega
      rw [if_neg h2, if_pos rfl, if_pos h3]; simp
    · by_cases h2 : a + 1 ≤ b ∧ b < a + 1 + bytes.length
      · have h3 : a ≤ b ∧ b < a + (bytes.length + 1) := by omega
        rw [if_pos h2, if_pos h3, show b - a = (b - (a + 1)) + 1 by omega]
        simp
      · have h3 : ¬ (a ≤ b ∧ b < a + (bytes.length + 1)) := by omega
        rw [if_neg h2, if_neg h3, if_neg h1]

/-! ## The canonical form -/

theorem mem_writeCell {m : Memory} {a : Nat} {v : Byte} {c : Host.Cell} (h : c ∈ writeCell m a v) :
    c = (a, v) ∨ c ∈ m := by
  induction m with
  | nil => simpa [writeCell] using h
  | cons d m ih =>
    obtain ⟨b, w⟩ := d
    simp only [writeCell] at h
    split at h
    · simpa using h
    · split at h
      · rcases List.mem_cons.1 h with h | h
        · exact .inl h
        · exact .inr (List.mem_cons_of_mem _ h)
      · rcases List.mem_cons.1 h with h | h
        · exact .inr (h ▸ List.mem_cons_self)
        · exact (ih h).imp id (List.mem_cons_of_mem _)

theorem writeCell_wf {m : Memory} (a : Nat) (v : Byte) (h : m.wf) : Memory.wf (writeCell m a v) := by
  induction m with
  | nil => simp [writeCell]
  | cons c m ih =>
    obtain ⟨b, w⟩ := c
    obtain ⟨h1, h2⟩ := List.pairwise_cons.1 h
    simp only [writeCell]
    split
    · refine List.pairwise_cons.2 ⟨fun d hd => ?_, h⟩
      rcases List.mem_cons.1 hd with rfl | hd
      · assumption
      · exact Nat.lt_trans ‹_› (h1 d hd)
    · split
      · subst b; exact List.pairwise_cons.2 ⟨h1, h2⟩
      · refine List.pairwise_cons.2 ⟨fun d hd => ?_, ih h2⟩
        rcases mem_writeCell hd with rfl | hd
        · show b < a; omega
        · exact h1 d hd

theorem writeCells_wf {m : Memory} (a : Nat) (bytes : List Byte) (h : m.wf) :
    Memory.wf (writeCells m a bytes) := by
  induction bytes generalizing m a with
  | nil => exact h
  | cons v bytes ih => exact ih (a + 1) (writeCell_wf a v h)

theorem nil_wf : Memory.wf [] := List.Pairwise.nil

theorem writeCell_bound {m : Memory} {cap a : Nat} (v : Byte) (ha : a < cap) (h : ∀ c ∈ m, c.1 < cap) :
    ∀ c ∈ writeCell m a v, c.1 < cap := fun c hc => by
  rcases mem_writeCell hc with rfl | hc
  · exact ha
  · exact h c hc

/-- A listed index is below the bound. -/
theorem readCell_bound {m : Memory} {cap a : Nat} (h : ∀ c ∈ m, c.1 < cap) (ha : (readCell m a).isSome) :
    a < cap := by
  induction m with
  | nil => simp [readCell] at ha
  | cons c m ih =>
    obtain ⟨b, w⟩ := c
    by_cases hb : b = a
    · subst b; exact h (a, w) List.mem_cons_self
    · exact ih (fun c hc => h c (List.mem_cons_of_mem _ hc)) (by simpa [readCell, hb] using ha)

theorem readCell_eq_none_of_lt {m : Memory} {b a : Nat} (h : ∀ c ∈ m, b < c.1) (hab : a ≤ b) :
    readCell m a = none := by
  induction m with
  | nil => rfl
  | cons c m ih =>
    obtain ⟨k, w⟩ := c
    have : b < k := h (k, w) List.mem_cons_self
    simp only [readCell]
    rw [if_neg (by omega)]
    exact ih fun c hc => h c (List.mem_cons_of_mem _ hc)

/-- Canonical memories with the same contents are the same list. -/
theorem eq_of_readCell_eq {m m' : Memory} (h : m.wf) (h' : m'.wf) (e : ∀ a, readCell m a = readCell m' a) :
    m = m' := by
  induction m generalizing m' with
  | nil =>
    cases m' with
    | nil => rfl
    | cons c m' => obtain ⟨b, w⟩ := c; simpa [readCell] using e b
  | cons c m ih =>
    obtain ⟨b, w⟩ := c
    obtain ⟨h1, h2⟩ := List.pairwise_cons.1 h
    cases m' with
    | nil => simpa [readCell] using e b
    | cons c' m' =>
      obtain ⟨b', w'⟩ := c'
      obtain ⟨h1', h2'⟩ := List.pairwise_cons.1 h'
      have hb : b = b' := by
        rcases Nat.lt_trichotomy b b' with hlt | heq | hgt
        · have := e b
          rw [readCell, if_pos rfl, readCell, if_neg (by omega),
            readCell_eq_none_of_lt h1' (Nat.le_of_lt hlt)] at this
          cases this
        · exact heq
        · have := e b'
          rw [readCell, if_neg (by omega), readCell, if_pos rfl,
            readCell_eq_none_of_lt h1 (Nat.le_of_lt hgt)] at this
          cases this
      subst b'
      have hw : w = w' := by simpa [readCell] using e b
      subst w'
      congr 1
      refine ih h2 h2' fun a => ?_
      by_cases ha : b = a
      · subst a
        rw [readCell_eq_none_of_lt h1 (Nat.le_refl b), readCell_eq_none_of_lt h1' (Nat.le_refl b)]
      · simpa [readCell, ha] using e a

/-! ## The bytes of the state -/

theorem outByte_storeOut (s : State) (a b : Nat) (v : Byte) :
    (s.storeOut a v).outByte b = if b = a then v else s.outByte b := by
  unfold State.outByte State.storeOut
  simp only [readCell_writeCell]
  split <;> rfl

theorem inByte_storeIn (s : State) (a b : Nat) (v : Byte) :
    (s.storeIn a v).inByte b = if b = a then v else s.inByte b := by
  unfold State.inByte State.storeIn
  simp only [readCell_writeCell]
  split <;> rfl

@[simp] theorem storeOut_outByte_same (s : State) (a : Nat) (v : Byte) : (s.storeOut a v).outByte a = v := by
  simp [outByte_storeOut]

theorem load_inByte (s : State) (bytes : List Byte) {a : Nat} (h : a < bytes.length) :
    (s.load bytes).inByte a = bytes[a] := by
  simp [State.load, State.inByte, readCell_writeCells, h]

end Sys2Proof.Machine
end

