-- ==== Sys2Proof/Laws/Ops.lean ====
section
/-! SUPPORT. What each shared operation can do: the free values fit their registers, taking an error, starting and
completing an operation keep the invariant's parts, and the flow of an action. -/

namespace Sys2Proof.Machine

/-! ## Free values fit their registers -/

theorem freeCursor_lt (p : Config.Params) (k slot : Nat) : freeCursor p k slot < 2 ^ p.cursorBits :=
  Nat.mod_lt _ (Nat.two_pow_pos _)

theorem freeCursorOrBottom_fits (p : Config.Params) (k slot : Nat) :
    FitsOrBottom (freeCursorOrBottom p k slot) (2 ^ p.cursorBits) := by
  intro v hv
  unfold freeCursorOrBottom at hv
  split at hv
  · cases hv
  · cases hv; exact freeCursor_lt p k (slot + 1)

theorem freeDecoder_off (p : Config.Params) (k : Nat) :
    -(2 ^ p.cursorBits : Int) ≤ (freeDecoder p k).off ∧ (freeDecoder p k).off < (2 ^ p.cursorBits : Int) := by
  have h : Config.freeNat k 16 % 2 ^ (p.cursorBits + 1) < 2 ^ (p.cursorBits + 1) :=
    Nat.mod_lt _ (Nat.two_pow_pos _)
  have e : (2 : Nat) ^ (p.cursorBits + 1) = 2 ^ p.cursorBits + 2 ^ p.cursorBits := by
    rw [Nat.pow_succ]; omega
  have c : ((2 ^ p.cursorBits : Nat) : Int) = (2 : Int) ^ p.cursorBits := by simp
  simp only [freeDecoder]
  omega

/-- The registers after an error fit their widths. -/
theorem takeError_widths {s : State} (c : Cause) {pos : Nat} (hn : s.inLen < 2 ^ s.params.cursorBits)
    (hp : pos < 2 ^ s.params.cursorBits) : Widths (takeError c pos s) where
  inLen := hn
  outLen := freeCursor_lt _ _ _
  errSrc := hp
  encDst := freeCursor_lt _ _ _
  encRunLen := Nat.mod_lt _ (by decide)
  encHdr := freeCursorOrBottom_fits _ _ _
  encOlen := freeCursor_lt _ _ _
  fndD := freeCursor_lt _ _ _
  fndLim := Nat.mod_lt _ (by decide)
  fndS := freeCursor_lt _ _ _
  fndNum := Nat.mod_lt _ (by decide)
  fndBestLen := Nat.mod_lt _ (by decide)
  fndBestSrc := freeCursorOrBottom_fits _ _ _
  decSrc := freeCursor_lt _ _ _
  decDst := freeCursor_lt _ _ _
  decOffLow := (freeDecoder_off _ _).1
  decOffHigh := (freeDecoder_off _ _).2
  decCnt := Nat.mod_lt _ (by decide)

/-! ## The part of the invariant no agent touches -/

/-- What an operation needs of the state to take an error from it: the parts of `Inv` that no agent writes. -/
structure BaseOk (s : State) : Prop where
  params : s.params.wf
  status : StatusOk s.status
  inLen : s.inLen < 2 ^ s.params.cursorBits
  inWf : s.inMem.wf
  inBound : ∀ c ∈ s.inMem, c.1 < s.params.inCap
  inEpoch : s.inEpoch < s.fresh

theorem Inv.base {s : State} (h : Inv s) : BaseOk s :=
  ⟨h.params, h.status, h.widths.inLen, h.memories.inWf, h.memories.inBound, h.memories.inEpoch⟩

/-- The host's pending actions are no part of the invariant. -/
theorem Inv.withHost {s : State} (h : Inv s) (actions : List HostAction) : Inv { s with host := actions } where
  params := h.params
  status := h.status
  widths := { h.widths with }
  memories := { h.memories with }
  encoder := fun he => { h.encoder he with }
  decoder := fun hd => { h.decoder hd with }
  output := fun ho => { h.output ho with }

/-- Taking an error gives a state that meets the invariant. -/
theorem takeError_inv {s : State} {c : Cause} {pos : Nat} (h : BaseOk s) (hc : c ≠ .none)
    (hp : pos < 2 ^ s.params.cursorBits) : Inv (takeError c pos s) where
  params := h.params
  status := statusOk_error c h.status hc
  widths := takeError_widths c h.inLen hp
  memories := ⟨h.inWf, nil_wf, h.inBound, by simp, Nat.lt_succ_of_lt h.inEpoch, Nat.lt_succ_self _⟩
  encoder := by simp [encoding_iff]
  decoder := by simp [decoding_iff]
  output := by simp

/-- The state after `takeError`: ERROR, the cause, the position, and the operation that failed (R184). -/
theorem takeError_fields (s : State) (c : Cause) (pos : Nat) :
    statusState (takeError c pos s).status = .error ∧ statusCause (takeError c pos s).status = causeCode c ∧
      statusOp (takeError c pos s).status = statusOp s.status := by simp

@[simp] theorem takeError_busy (s : State) (c : Cause) (pos : Nat) : (takeError c pos s).busy = false := by
  simp [State.busy]

@[simp] theorem startOperation_busy (s : State) (op : Op) : (startOperation op s).busy = true := by
  simp [State.busy]

/-- The state after `startOperation` (R21): BUSY, the operation, no cause. -/
theorem startOperation_fields (s : State) (op : Op) :
    statusState (startOperation op s).status = .busy ∧ statusOp (startOperation op s).status = op ∧
      statusCause (startOperation op s).status = 0 := by simp [causeCode]

theorem startOperation_base {s : State} (op : Op) (h : BaseOk s) : BaseOk (startOperation op s) :=
  ⟨h.params, statusOk_start op h.status, h.inLen, h.inWf, h.inBound, Nat.lt_succ_of_lt h.inEpoch⟩

theorem startOperation_widths {s : State} (op : Op) (h : Widths s) : Widths (startOperation op s) :=
  { h with outLen := freeCursor_lt _ _ _ }

theorem startOperation_memories {s : State} (op : Op) (h : MemoriesOk s) : MemoriesOk (startOperation op s) :=
  ⟨h.inWf, nil_wf, h.inBound, by simp, Nat.lt_succ_of_lt h.inEpoch, Nat.lt_succ_self _⟩

@[simp] theorem completeOperation_busy (s : State) (len : Nat) : (completeOperation len s).busy = false := by
  simp [State.busy]

/-- Completing an operation whose `len` bytes are written gives a state that meets the invariant. -/
theorem completeOperation_inv {s : State} {len : Nat} (hb : BaseOk s) (hw : Widths s) (hm : MemoriesOk s)
    (hs : statusState s.status = .busy) (hl : len ≤ s.params.outCap)
    (hr : ∀ a, a < len → (readCell s.outMem a).isSome) : Inv (completeOperation len s) where
  params := hb.params
  status := statusOk_done hb.status hs
  widths := { hw with outLen := Nat.lt_of_le_of_lt hl hb.params.2.2.2.2.2 }
  memories := ⟨hm.inWf, hm.outWf, hm.inBound, hm.outBound, hm.inEpoch, hm.outEpoch⟩
  encoder := by simp [encoding_iff]
  decoder := by simp [decoding_iff]
  output := fun _ => ⟨hl, hr⟩

/-! ## The flow of an action -/

@[simp] theorem Flow.go_andThen (s : State) (f : State → Flow) : (Flow.go s).andThen f = f s := rfl
@[simp] theorem Flow.raised_andThen (s : State) (f : State → Flow) : (Flow.raised s).andThen f = .raised s := rfl
@[simp] theorem Flow.stuck_andThen (r : Fault) (f : State → Flow) : (Flow.stuck r).andThen f = .stuck r := rfl
@[simp] theorem Flow.go_toOutcome (s : State) : (Flow.go s).toOutcome = .next s := rfl
@[simp] theorem Flow.raised_toOutcome (s : State) : (Flow.raised s).toOutcome = .next s := rfl
@[simp] theorem Flow.stuck_toOutcome (r : Fault) : (Flow.stuck r).toOutcome = .fault r := rfl

end Sys2Proof.Machine
end

