-- ==== Sys2Proof/Laws/Decoder.lean ====
section
/-! SUPPORT. What the copies of LIT and MATCH do (42_decoder.md R153, R155), and the bytes a fetch gives. -/

namespace Sys2Proof.Machine

/-- `t` differs from `s` at most in `D.*` and OUT: all that a copy of the Decoder may change. -/
abbrev DecoderFrame (s t : State) : Prop := t = { s with dec := t.dec, outMem := t.outMem }

theorem DecoderFrame.trans {s t u : State} (h : DecoderFrame s t) (h' : DecoderFrame t u) : DecoderFrame s u := by
  rw [DecoderFrame, h', h]

theorem DecoderFrame.base {s t : State} (h : DecoderFrame s t) (hb : BaseOk s) : BaseOk t := by
  rw [h]; exact ⟨hb.params, hb.status, hb.inLen, hb.inWf, hb.inBound, hb.inEpoch⟩

/-! ## LIT's copy -/

theorem copyLiteral_frame (payload : List Byte) (s : State) : DecoderFrame s (copyLiteral payload s) := by
  induction payload generalizing s with
  | nil => rfl
  | cons v payload ih => exact (show DecoderFrame s (literalPass v s) from rfl).trans (ih _)

theorem copyLiteral_dec (payload : List Byte) (s : State) :
    (copyLiteral payload s).dec =
      { s.dec with dst := s.dec.dst + payload.length, cnt := s.dec.cnt - payload.length } := by
  induction payload generalizing s with
  | nil => simp [copyLiteral]
  | cons v payload ih =>
    simp only [copyLiteral, ih, literalPass, setDec_dec, List.length_cons]
    congr 1 <;> omega

theorem copyLiteral_readCell (payload : List Byte) (s : State) (a : Nat) :
    readCell (copyLiteral payload s).outMem a =
      if s.dec.dst ≤ a ∧ a < s.dec.dst + payload.length then payload[a - s.dec.dst]? else readCell s.outMem a := by
  have h : ∀ s : State, (copyLiteral payload s).outMem = writeCells s.outMem s.dec.dst payload := by
    induction payload with
    | nil => intro s; rfl
    | cons v payload ih => intro s; simp [copyLiteral, writeCells, ih, literalPass]
  rw [h, readCell_writeCells]

/-- Which indices are written after the copy: the ones before it and the copied ones. -/
theorem copyLiteral_isSome (payload : List Byte) (s : State) (a : Nat) :
    (readCell (copyLiteral payload s).outMem a).isSome ↔
      (readCell s.outMem a).isSome ∨ (s.dec.dst ≤ a ∧ a < s.dec.dst + payload.length) := by
  rw [copyLiteral_readCell]
  by_cases ha : s.dec.dst ≤ a ∧ a < s.dec.dst + payload.length
  · rw [if_pos ha, List.getElem?_eq_getElem (by omega)]
    simp [ha]
  · rw [if_neg ha]; simp [ha]

/-- The bytes of OUT after the copy. -/
theorem copyLiteral_outByte (payload : List Byte) (s : State) (a : Nat) :
    (copyLiteral payload s).outByte a =
      if s.dec.dst ≤ a ∧ a < s.dec.dst + payload.length then payload.getD (a - s.dec.dst) 0 else s.outByte a := by
  have he : (copyLiteral payload s).outEpoch = s.outEpoch := by rw [copyLiteral_frame payload s]
  unfold State.outByte
  rw [he, copyLiteral_readCell]
  by_cases ha : s.dec.dst ≤ a ∧ a < s.dec.dst + payload.length
  · rw [if_pos ha, if_pos ha, List.getElem?_eq_getElem (by omega), List.getD_eq_getElem _ _ (by omega)]; rfl
  · rw [if_neg ha, if_neg ha]

theorem copyLiteral_wf (payload : List Byte) {s : State} (h : s.outMem.wf) :
    (copyLiteral payload s).outMem.wf := by
  induction payload generalizing s with
  | nil => exact h
  | cons v payload ih => exact ih (writeCell_wf _ v h)

theorem copyLiteral_bound (payload : List Byte) {s : State} {cap : Nat} (h : ∀ c ∈ s.outMem, c.1 < cap)
    (hl : s.dec.dst + payload.length ≤ cap) : ∀ c ∈ (copyLiteral payload s).outMem, c.1 < cap := by
  induction payload generalizing s with
  | nil => exact h
  | cons v payload ih =>
    simp only [List.length_cons] at hl
    refine ih (s := literalPass v s) (writeCell_bound v (by omega) h) ?_
    simp only [literalPass, setDec_dec]; omega

/-! ## MATCH's copy -/

theorem copyMatch_frame (passes : Nat) (s : State) : DecoderFrame s (copyMatch passes s) := by
  induction passes generalizing s with
  | zero => rfl
  | succ passes ih => exact (show DecoderFrame s (matchPass s) from rfl).trans (ih _)

theorem copyMatch_dec (passes : Nat) (s : State) :
    (copyMatch passes s).dec =
      { s.dec with dst := s.dec.dst + passes, off := s.dec.off + passes, cnt := s.dec.cnt - passes } := by
  induction passes generalizing s with
  | zero => simp [copyMatch]
  | succ passes ih =>
    simp only [copyMatch, ih, matchPass, setDec_dec]
    congr 1 <;> omega

theorem copyMatch_wf (passes : Nat) {s : State} (h : s.outMem.wf) : (copyMatch passes s).outMem.wf := by
  induction passes generalizing s with
  | zero => exact h
  | succ passes ih => exact ih (writeCell_wf _ _ h)

theorem copyMatch_bound (passes : Nat) {s : State} {cap : Nat} (h : ∀ c ∈ s.outMem, c.1 < cap)
    (hl : s.dec.dst + passes ≤ cap) : ∀ c ∈ (copyMatch passes s).outMem, c.1 < cap := by
  induction passes generalizing s with
  | zero => exact h
  | succ passes ih =>
    refine ih (s := matchPass s) (writeCell_bound _ (by omega) h) ?_
    simp only [matchPass, setDec_dec]; omega

/-- Which indices are written after the copy: the ones before it and the copied ones. -/
theorem copyMatch_isSome (passes : Nat) (s : State) (a : Nat) :
    (readCell (copyMatch passes s).outMem a).isSome ↔
      (readCell s.outMem a).isSome ∨ (s.dec.dst ≤ a ∧ a < s.dec.dst + passes) := by
  induction passes generalizing s with
  | zero => simp only [copyMatch]; constructor
            · exact .inl
            · rintro (h | h)
              · exact h
              · omega
  | succ passes ih =>
    rw [copyMatch, ih]
    simp only [matchPass, setDec_dec, setDec_outMem, storeOut_outMem, readCell_writeCell]
    by_cases ha : a = s.dec.dst
    · simp only [if_pos ha, Option.isSome_some, true_or, true_iff]; omega
    · simp only [if_neg ha]
      constructor <;> rintro (h | h) <;> first | exact .inl h | (right; omega)

/-- A byte the copy does not write reads as before. -/
theorem copyMatch_outside (passes : Nat) (s : State) (a : Nat) (h : a < s.dec.dst ∨ s.dec.dst + passes ≤ a) :
    (copyMatch passes s).outByte a = s.outByte a := by
  induction passes generalizing s with
  | zero => rfl
  | succ passes ih =>
    rw [copyMatch, ih _ (by simp only [matchPass, setDec_dec]; omega)]
    simp only [matchPass, setDec_outByte, outByte_storeOut]
    rw [if_neg (by omega)]

/-- The copy writes, at each index, the byte it then holds `D.dst - D.off` indices before (R155): each pass reads an
index already written. -/
theorem copyMatch_inside (passes : Nat) (s : State) {o : Nat} (ho : s.dec.off = o) (hlt : o < s.dec.dst) (i : Nat)
    (hi : i < passes) :
    (copyMatch passes s).outByte (s.dec.dst + i) = (copyMatch passes s).outByte (o + i) := by
  induction passes generalizing s o i with
  | zero => omega
  | succ passes ih =>
    rw [copyMatch]
    have hd : (matchPass s).dec.dst = s.dec.dst + 1 := rfl
    have ho' : (matchPass s).dec.off = ((o + 1 : Nat) : Int) := by
      simp only [matchPass, setDec_dec, ho]; omega
    cases i with
    | zero =>
      rw [copyMatch_outside _ _ _ (by rw [hd]; omega), copyMatch_outside _ _ _ (by rw [hd]; omega)]
      simp only [matchPass, setDec_outByte, outByte_storeOut, ho, Int.toNat_natCast, Nat.add_zero]
      simp [Nat.ne_of_lt hlt]
    | succ i =>
      have := ih (matchPass s) ho' (by rw [hd]; omega) i (by omega)
      rw [hd] at this
      rw [show s.dec.dst + (i + 1) = s.dec.dst + 1 + i by omega, show o + (i + 1) = o + 1 + i by omega]
      exact this

/-! ## The operands of a MATCH (30_encoding.md R75) -/

theorem matchDistance_bounds (d : Byte) : 1 ≤ matchDistance d ∧ matchDistance d ≤ Config.window := by
  have := d.isLt
  simp only [matchDistance, Config.window]
  omega

theorem matchOffset_eq (dst : Nat) (d : Byte) : matchOffset dst d = (dst : Int) - matchDistance d := by
  have := d.isLt
  simp only [matchOffset, matchDistance, Config.window]
  omega

theorem matchLength_bounds (m : BitVec 7) : 2 ≤ matchLength m ∧ matchLength m ≤ Config.matchMax := by
  have := m.isLt
  simp only [matchLength, Config.matchMin, Config.matchMax]
  omega

/-! ## Fetching -/

/-- How many bytes a fetch gives: those of `IN[D.src .. n-1]`, at most the longest token. -/
@[simp] theorem fetchBytes_length (s : State) :
    (fetchBytes s).length = min (s.inLen - s.dec.src) Config.maxTokenBytes := by
  simp [fetchBytes]

theorem fetchBytes_getElem (s : State) {k : Nat} (h : k < (fetchBytes s).length) :
    (fetchBytes s)[k] = s.inByte (s.dec.src + k) := by
  simp [fetchBytes]

theorem fetchBytes_eq_nil {s : State} (h : s.inLen ≤ s.dec.src) : fetchBytes s = [] := by
  simp [fetchBytes, Nat.sub_eq_zero_of_le h]

/-- With `D.src < n` the first byte fetched is the header. -/
theorem fetchBytes_eq_cons {s : State} (h : s.dec.src < s.inLen) :
    fetchBytes s = s.inByte s.dec.src ::
      (List.range' (s.dec.src + 1) (min (s.inLen - s.dec.src) Config.maxTokenBytes - 1)).map s.inByte := by
  have : min (s.inLen - s.dec.src) Config.maxTokenBytes =
      (min (s.inLen - s.dec.src) Config.maxTokenBytes - 1) + 1 := by
    simp only [Config.maxTokenBytes]; omega
  rw [fetchBytes, this, List.range'_succ]; simp

end Sys2Proof.Machine
end

