-- ==== Sys2Proof/Laws/Encoder.lean ====
section
/-! SUPPORT. What each action of the Encoder does, one lemma each way it can go (41_encoder.md R122 to R128). -/

namespace Sys2Proof.Machine

/-- `t` differs from `s` at most in `E.*`, `F.*`, OUT and the count of free values: all that an action of the Encoder
may change without raising an error. The count does not fall. -/
structure EncoderFrame (s t : State) : Prop where
  eq : t = { s with enc := t.enc, fnd := t.fnd, outMem := t.outMem, fresh := t.fresh }
  fresh : s.fresh ≤ t.fresh

theorem EncoderFrame.base {s t : State} (h : EncoderFrame s t) (hb : BaseOk s) : BaseOk t := by
  rw [h.eq]; exact ⟨hb.params, hb.status, hb.inLen, hb.inWf, hb.inBound, Nat.lt_of_lt_of_le hb.inEpoch h.fresh⟩

theorem EncoderFrame.refl (s : State) : EncoderFrame s s := ⟨rfl, Nat.le_refl _⟩

theorem EncoderFrame.params {s t : State} (h : EncoderFrame s t) : t.params = s.params := by rw [h.eq]
theorem EncoderFrame.status {s t : State} (h : EncoderFrame s t) : t.status = s.status := by rw [h.eq]
theorem EncoderFrame.inLen {s t : State} (h : EncoderFrame s t) : t.inLen = s.inLen := by rw [h.eq]
theorem EncoderFrame.inByte {s t : State} (h : EncoderFrame s t) : t.inByte = s.inByte := by rw [h.eq]; rfl

theorem EncoderFrame.trans {s t u : State} (h : EncoderFrame s t) (h' : EncoderFrame t u) : EncoderFrame s u :=
  ⟨by rw [h'.eq, h.eq], Nat.le_trans h.fresh h'.fresh⟩

/-! ## Append (R128) -/

theorem appendByte_go {s : State} (v : Byte) (h : s.enc.olen ≠ s.params.outCap) :
    appendByte v s = .go ((s.storeOut s.enc.olen v).setEnc { s.enc with olen := s.enc.olen + 1 }) := by
  simp [appendByte, h]

theorem appendByte_raised {s : State} (v : Byte) (h : s.enc.olen = s.params.outCap) :
    appendByte v s = .raised (takeError .outputOverflow s.enc.dst s) := by
  simp [appendByte, h]

/-! ## Finalize (R124) -/

theorem finalizeRun_go {s : State} {h : Nat} (hh : s.enc.hdr = some h) :
    finalizeRun s =
      .go ((s.storeOut h (litHeader s.enc.runLen)).setEnc { s.enc with isOpen := false, hdr := none }) := by
  simp [finalizeRun, hh]

theorem finalizeRun_stuck {s : State} (hh : s.enc.hdr = none) : finalizeRun s = .stuck .bottomRead := by
  simp [finalizeRun, hh]

/-- The state after `if E.open = 1: Finalize()`, when an open run has its header position. -/
def closed (s : State) : State :=
  if s.enc.isOpen then
    (s.storeOut (s.enc.hdr.getD 0) (litHeader s.enc.runLen)).setEnc { s.enc with isOpen := false, hdr := none }
  else s

theorem finalizeIfOpen_go {s : State} (hh : s.enc.isOpen = true → ∃ h, s.enc.hdr = some h) :
    finalizeIfOpen s = .go (closed s) := by
  unfold finalizeIfOpen closed
  split
  · obtain ⟨h, e⟩ := hh ‹_›
    rw [finalizeRun_go e, e]; rfl
  · rfl

theorem closed_frame (s : State) : EncoderFrame s (closed s) := by
  unfold closed; split <;> exact ⟨rfl, Nat.le_refl _⟩

@[simp] theorem closed_dst (s : State) : (closed s).enc.dst = s.enc.dst := by unfold closed; split <;> rfl
@[simp] theorem closed_olen (s : State) : (closed s).enc.olen = s.enc.olen := by unfold closed; split <;> rfl
@[simp] theorem closed_runLen (s : State) : (closed s).enc.runLen = s.enc.runLen := by unfold closed; split <;> rfl
@[simp] theorem closed_fnd (s : State) : (closed s).fnd = s.fnd := by unfold closed; split <;> rfl
@[simp] theorem closed_params (s : State) : (closed s).params = s.params := (closed_frame s).params
@[simp] theorem closed_isOpen (s : State) : (closed s).enc.isOpen = false := by
  unfold closed
  split
  · rfl
  · simpa using ‹¬s.enc.isOpen = true›

/-! ## EmitLiteral (R126) -/

/-- The state after opening a run where none is open, when the placeholder fits. -/
def opened (s : State) : State :=
  if s.enc.isOpen then s
  else
    { (s.storeOut s.enc.olen (Config.freeByte s.fresh)) with
      enc := { s.enc with hdr := some s.enc.olen, olen := s.enc.olen + 1, isOpen := true, runLen := 0 }
      fresh := s.fresh + 1 }

theorem openRunIfClosed_go {s : State} (h : s.enc.isOpen = false → s.enc.olen ≠ s.params.outCap) :
    openRunIfClosed s = .go (opened s) := by
  unfold openRunIfClosed opened
  split
  · rfl
  · have := h (by simpa using ‹¬s.enc.isOpen = true›)
    rw [appendByte_go _ (by simpa [reserveHeader] using this)]; rfl

theorem openRunIfClosed_raised {s : State} (ho : s.enc.isOpen = false) (h : s.enc.olen = s.params.outCap) :
    ∃ u, openRunIfClosed s = .raised (takeError .outputOverflow s.enc.dst u) ∧ EncoderFrame s u := by
  unfold openRunIfClosed
  rw [if_neg (by simp [ho]), appendByte_raised _ (by simpa [reserveHeader] using h)]
  exact ⟨reserveHeader s, rfl, rfl, Nat.le_succ _⟩

theorem opened_frame (s : State) : EncoderFrame s (opened s) := by
  unfold opened
  split
  · exact EncoderFrame.refl s
  · exact ⟨rfl, Nat.le_succ _⟩

@[simp] theorem opened_dst (s : State) : (opened s).enc.dst = s.enc.dst := by unfold opened; split <;> rfl
@[simp] theorem opened_fnd (s : State) : (opened s).fnd = s.fnd := by unfold opened; split <;> rfl
@[simp] theorem opened_params (s : State) : (opened s).params = s.params := (opened_frame s).params
@[simp] theorem opened_isOpen (s : State) : (opened s).enc.isOpen = true := by
  unfold opened
  split
  · assumption
  · rfl

/-- The state after `EmitLiteral()`, when the bytes fit. -/
def literalEmitted (s : State) : State :=
  let t := opened s
  (t.storeOut t.enc.olen (t.inByte t.enc.dst)).setEnc
    { t.enc with olen := t.enc.olen + 1, runLen := t.enc.runLen + 1, dst := t.enc.dst + 1 }

theorem emitLiteral_go {s : State} (h1 : s.enc.isOpen = false → s.enc.olen ≠ s.params.outCap)
    (h2 : (opened s).enc.olen ≠ s.params.outCap) : emitLiteral s = .go (literalEmitted s) := by
  unfold emitLiteral
  rw [openRunIfClosed_go h1, Flow.go_andThen, appendByte_go _ (by simpa using h2)]; rfl

theorem emitLiteral_raised {s : State}
    (h : (s.enc.isOpen = false ∧ s.enc.olen = s.params.outCap) ∨ (opened s).enc.olen = s.params.outCap) :
    ∃ u, emitLiteral s = .raised (takeError .outputOverflow s.enc.dst u) ∧ EncoderFrame s u := by
  unfold emitLiteral
  by_cases h1 : s.enc.isOpen = false ∧ s.enc.olen = s.params.outCap
  · obtain ⟨u, e, f⟩ := openRunIfClosed_raised h1.1 h1.2
    exact ⟨u, by rw [e, Flow.raised_andThen], f⟩
  · have h2 := h.resolve_left h1
    rw [openRunIfClosed_go fun ho hc => h1 ⟨ho, hc⟩, Flow.go_andThen, appendByte_raised _ (by simpa using h2)]
    exact ⟨opened s, by simp, opened_frame s⟩

theorem literalEmitted_frame (s : State) : EncoderFrame s (literalEmitted s) :=
  (opened_frame s).trans ⟨rfl, Nat.le_refl _⟩

/-! ## EmitMatch (R123) -/

/-- The state after `EmitMatch(L, S)`, when the two bytes fit. -/
def matchEmitted (len src : Nat) (s : State) : State :=
  let t := closed s
  ((t.storeOut t.enc.olen (matchHeader (matchField len))).storeOut (t.enc.olen + 1)
    (distanceByte src t.enc.dst)).setEnc { t.enc with olen := t.enc.olen + 2, dst := t.enc.dst + len }

theorem emitMatch_go {s : State} (len src : Nat) (hh : s.enc.isOpen = true → ∃ h, s.enc.hdr = some h)
    (h1 : s.enc.olen ≠ s.params.outCap) (h2 : s.enc.olen + 1 ≠ s.params.outCap) :
    emitMatch len src s = .go (matchEmitted len src s) := by
  unfold emitMatch
  rw [finalizeIfOpen_go hh, Flow.go_andThen, appendByte_go _ (by simpa using h1), Flow.go_andThen,
    appendByte_go _ (by simpa using h2)]
  rfl

theorem emitMatch_raised {s : State} (len src : Nat) (hh : s.enc.isOpen = true → ∃ h, s.enc.hdr = some h)
    (h : s.enc.olen = s.params.outCap ∨ s.enc.olen + 1 = s.params.outCap) :
    ∃ u, emitMatch len src s = .raised (takeError .outputOverflow s.enc.dst u) ∧ EncoderFrame s u := by
  unfold emitMatch
  rw [finalizeIfOpen_go hh, Flow.go_andThen]
  by_cases h1 : s.enc.olen = s.params.outCap
  · rw [appendByte_raised _ (by simpa using h1)]
    exact ⟨closed s, by simp, closed_frame s⟩
  · rw [appendByte_go _ (by simpa using h1), Flow.go_andThen,
      appendByte_raised _ (by simpa using h.resolve_left h1)]
    exact ⟨((closed s).storeOut (closed s).enc.olen (matchHeader (matchField len))).setEnc
      { (closed s).enc with olen := (closed s).enc.olen + 1 }, by simp, (closed_frame s).trans ⟨rfl, Nat.le_refl _⟩⟩

theorem matchEmitted_frame (len src : Nat) (s : State) : EncoderFrame s (matchEmitted len src s) :=
  (closed_frame s).trans ⟨rfl, Nat.le_refl _⟩

/-! ## SplitIfFull (R125) and Finish (R127) -/

/-- The state after `SplitIfFull()`, when an open run has its header position. -/
def splitRun (s : State) : State := if s.enc.isOpen && decide (s.enc.runLen = Config.litMax) then closed s else s

theorem splitIfFull_go {s : State} (hh : s.enc.isOpen = true → ∃ h, s.enc.hdr = some h) :
    splitIfFull s = .go (splitRun s) := by
  unfold splitIfFull splitRun
  split
  · have ho : s.enc.isOpen = true := by simp_all
    obtain ⟨h, e⟩ := hh ho
    rw [finalizeRun_go e, closed, if_pos ho, e]; rfl
  · rfl

theorem splitRun_frame (s : State) : EncoderFrame s (splitRun s) := by
  unfold splitRun
  split
  · exact closed_frame s
  · exact EncoderFrame.refl s

theorem finishEncode_go {s : State} (hh : s.enc.isOpen = true → ∃ h, s.enc.hdr = some h)
    (h : s.enc.olen ≠ s.params.outCap) :
    finishEncode s = .go (completeOperation (s.enc.olen + 1)
      (((closed s).storeOut s.enc.olen Config.terminator).setEnc
        { (closed s).enc with olen := s.enc.olen + 1 })) := by
  unfold finishEncode
  rw [finalizeIfOpen_go hh, Flow.go_andThen, appendByte_go _ (by simpa using h)]
  simp

theorem finishEncode_raised {s : State} (hh : s.enc.isOpen = true → ∃ h, s.enc.hdr = some h)
    (h : s.enc.olen = s.params.outCap) :
    ∃ u, finishEncode s = .raised (takeError .outputOverflow s.enc.dst u) ∧ EncoderFrame s u := by
  unfold finishEncode
  rw [finalizeIfOpen_go hh, Flow.go_andThen, appendByte_raised _ (by simpa using h)]
  exact ⟨closed s, by simp, closed_frame s⟩

end Sys2Proof.Machine
end

