-- ==== Sys2Proof/Laws/MatchFinder.lean ====
section
/-! SUPPORT. What FIND computes: the match length of a candidate is maximal (40_match_finder.md R102), and the scan keeps
the first candidate of the greatest length (R103). -/

namespace Sys2Proof.Machine

/-! ## The match length of a candidate (R102) -/

theorem matchRun_spec (byteAt : Nat → Byte) (s d passes num : Nat) :
    num ≤ matchRun byteAt s d passes num ∧ matchRun byteAt s d passes num ≤ num + passes ∧
    (∀ i, num ≤ i → i < matchRun byteAt s d passes num → byteAt (s + i) = byteAt (d + i)) ∧
    (matchRun byteAt s d passes num < num + passes →
      byteAt (s + matchRun byteAt s d passes num) ≠ byteAt (d + matchRun byteAt s d passes num)) := by
  induction passes generalizing num with
  | zero => simp only [matchRun]; exact ⟨le_refl _, le_refl _, fun i h h' => absurd h' (by omega), by omega⟩
  | succ passes ih =>
    simp only [matchRun]
    split
    · obtain ⟨h1, h2, h3, h4⟩ := ih (num + 1)
      refine ⟨by omega, by omega, fun i hi hi' => ?_, fun h => h4 (by omega)⟩
      by_cases hn : i = num
      · subst i; assumption
      · exact h3 i (by omega) hi'
    · exact ⟨le_refl _, by omega, fun i h h' => absurd h' (by omega), fun _ => by assumption⟩

/-- A candidate's length is the greatest `k <= lim - 1` with equal bytes on `[0, k)`. -/
theorem candidateLength_spec (byteAt : Nat → Byte) (d lim s : Nat) :
    candidateLength byteAt d lim s ≤ lim - 1 ∧
    (∀ i, i < candidateLength byteAt d lim s → byteAt (s + i) = byteAt (d + i)) ∧
    (candidateLength byteAt d lim s < lim - 1 →
      byteAt (s + candidateLength byteAt d lim s) ≠ byteAt (d + candidateLength byteAt d lim s)) := by
  obtain ⟨-, h2, h3, h4⟩ := matchRun_spec byteAt s d (lim - 1) 0
  rw [Nat.zero_add] at h2 h4
  exact ⟨h2, fun i => h3 i (Nat.zero_le i), h4⟩

/-! ## The scan (R103) -/

/-- What the scan knows after the candidates `seen`: the best length is the greatest of theirs, and the best source, if
there is one, is the first of that length. -/
structure Scanned (byteAt : Nat → Byte) (d lim : Nat) (seen : List Nat) (f : Finder) : Prop where
  position : f.d = d
  bound : f.lim = lim
  greatest : ∀ c ∈ seen, candidateLength byteAt d lim c ≤ f.bestLen
  best : (f.bestSrc = none ∧ f.bestLen = 0) ∨
    ∃ c ∈ seen, f.bestSrc = some c ∧ candidateLength byteAt d lim c = f.bestLen ∧ 0 < f.bestLen ∧
      ∀ c' ∈ seen, c' < c → candidateLength byteAt d lim c' < f.bestLen

theorem findInit_scanned (byteAt : Nat → Byte) (p : Config.Params) (n d : Nat) (f : Finder) :
    Scanned byteAt d (min (n - d) p.matchLimit) [] (findInit p n d f) :=
  ⟨rfl, rfl, by simp, .inl ⟨rfl, rfl⟩⟩

theorem findCandidate_scanned {byteAt : Nat → Byte} {d lim c : Nat} {seen : List Nat} {f : Finder}
    (h : Scanned byteAt d lim seen f) (hc : ∀ x ∈ seen, x < c) :
    Scanned byteAt d lim (seen ++ [c]) (findCandidate byteAt f c) := by
  obtain ⟨hd, hl, hg, hb⟩ := h
  subst hd hl
  unfold findCandidate
  simp only
  split
  · rename_i hlt
    refine ⟨rfl, rfl, fun x hx => ?_, .inr ⟨c, by simp, rfl, rfl, by simp only; omega, fun x hx hxc => ?_⟩⟩
    · rcases List.mem_append.1 hx with hx | hx
      · exact Nat.le_of_lt (Nat.lt_of_le_of_lt (hg x hx) hlt)
      · rw [List.mem_singleton.1 hx]
    · rcases List.mem_append.1 hx with hx | hx
      · exact Nat.lt_of_le_of_lt (hg x hx) hlt
      · rw [List.mem_singleton.1 hx] at hxc; omega
  · rename_i hlt
    refine ⟨rfl, rfl, fun x hx => ?_, hb.imp id ?_⟩
    · rcases List.mem_append.1 hx with hx | hx
      · exact hg x hx
      · rw [List.mem_singleton.1 hx]; simp only; omega
    · rintro ⟨b, hb1, hb2, hb3, hb4, hb5⟩
      refine ⟨b, by simp [hb1], hb2, hb3, hb4, fun x hx hxb => ?_⟩
      rcases List.mem_append.1 hx with hx | hx
      · exact hb5 x hx hxb
      · rw [List.mem_singleton.1 hx] at hxb
        have := hc b hb1; omega

theorem findFold_scanned {byteAt : Nat → Byte} {d lim : Nat} (todo : List Nat) {seen : List Nat} {f : Finder}
    (h : Scanned byteAt d lim seen f) (hs : (seen ++ todo).Pairwise (· < ·)) :
    Scanned byteAt d lim (seen ++ todo) (todo.foldl (findCandidate byteAt) f) := by
  induction todo generalizing seen f with
  | nil => simpa using h
  | cons c todo ih =>
    have hc : ∀ x ∈ seen, x < c := fun x hx =>
      (List.pairwise_append.1 hs).2.2 x hx c List.mem_cons_self
    have := ih (findCandidate_scanned h hc) (by simpa using hs)
    simpa using this

/-- The window of position `d` (R102): the positions from `d - 256`, or 0, to `d - 1`. -/
theorem mem_findWindow {d c : Nat} : c ∈ findWindow d ↔ d - Config.window ≤ c ∧ c < d := by
  simp only [findWindow, List.mem_range'_1, Config.window]
  omega

theorem findWindow_sorted (d : Nat) : (findWindow d).Pairwise (· < ·) := List.pairwise_lt_range'

/-- What the scan of the whole window knows, before R104. -/
theorem findScan_scanned (s : State) :
    Scanned s.inByte s.enc.dst (min (s.inLen - s.enc.dst) s.params.matchLimit) (findWindow s.enc.dst)
      ((findWindow s.enc.dst).foldl (findCandidate s.inByte) (findInit s.params s.inLen s.enc.dst s.fnd)) := by
  simpa using findFold_scanned (findWindow s.enc.dst)
    (findInit_scanned s.inByte s.params s.inLen s.enc.dst s.fnd) (by simpa using findWindow_sorted s.enc.dst)

/-! ## FIND writes only `F.*`, each register within its width -/

theorem setFnd_frame (f : Finder) (s : State) : s.setFnd f = { s with fnd := (s.setFnd f).fnd } := rfl

theorem findMatch_frame (s : State) : findMatch s = { s with fnd := (findMatch s).fnd } :=
  setFnd_frame _ s

@[simp] theorem findMatch_enc (s : State) : (findMatch s).enc = s.enc := setFnd_enc s _
@[simp] theorem findMatch_params (s : State) : (findMatch s).params = s.params := setFnd_params s _
@[simp] theorem findMatch_inLen (s : State) : (findMatch s).inLen = s.inLen := setFnd_inLen s _

/-- The Match Finder's registers fit their widths. -/
structure FinderFits (p : Config.Params) (f : Finder) : Prop where
  d : f.d < 2 ^ p.cursorBits
  lim : f.lim < 2 ^ 8
  s : f.s < 2 ^ p.cursorBits
  num : f.num < 2 ^ 8
  bestLen : f.bestLen < 2 ^ 8
  bestSrc : FitsOrBottom f.bestSrc (2 ^ p.cursorBits)

theorem findCandidate_fits {p : Config.Params} {byteAt : Nat → Byte} {f : Finder} {c : Nat}
    (h : FinderFits p f) (hc : c < f.d) : FinderFits p (findCandidate byteAt f c) := by
  have hn : candidateLength byteAt f.d f.lim c < 2 ^ 8 :=
    Nat.lt_of_le_of_lt (candidateLength_spec byteAt f.d f.lim c).1 (by have := h.lim; omega)
  have hs : c < 2 ^ p.cursorBits := Nat.lt_trans hc h.d
  unfold findCandidate
  simp only
  split
  · exact ⟨h.d, h.lim, hs, hn, hn, fun v hv => by cases hv; exact hs⟩
  · exact ⟨h.d, h.lim, hs, hn, h.bestLen, h.bestSrc⟩

theorem findCandidate_d (byteAt : Nat → Byte) (f : Finder) (c : Nat) : (findCandidate byteAt f c).d = f.d := by
  unfold findCandidate; simp only; split <;> rfl

theorem findFold_fits {p : Config.Params} {byteAt : Nat → Byte} (l : List Nat) {f : Finder}
    (h : FinderFits p f) (hl : ∀ c ∈ l, c < f.d) : FinderFits p (l.foldl (findCandidate byteAt) f) := by
  induction l generalizing f with
  | nil => exact h
  | cons c l ih =>
    refine ih (findCandidate_fits h (hl c List.mem_cons_self)) fun x hx => ?_
    rw [findCandidate_d]; exact hl x (List.mem_cons_of_mem _ hx)

theorem findNormalise_fits {p : Config.Params} {f : Finder} (h : FinderFits p f) :
    FinderFits p (findNormalise f) := by
  unfold findNormalise
  split
  · exact ⟨h.d, h.lim, h.s, h.num, by simp, fun _ hv => nomatch hv⟩
  · exact h

theorem findMatch_fits {s : State} (hp : s.params.wf) (hw : Widths s) : FinderFits s.params (findMatch s).fnd := by
  have h1 := hp.2.1
  simp only [Config.matchMax] at h1
  have hi : FinderFits s.params (findInit s.params s.inLen s.enc.dst s.fnd) :=
    ⟨hw.encDst, by simp only [findInit]; omega, hw.fndS, hw.fndNum, by simp [findInit], fun _ hv => nomatch hv⟩
  have := findNormalise_fits (findFold_fits (byteAt := s.inByte) _ hi fun c hc => (mem_findWindow.1 hc).2)
  rwa [← setFnd_fnd s (findNormalise _)] at this

/-- An accepted length has a source position (10_state.md R34): a best length of 2 or more comes with one. -/
theorem findMatch_source {s : State} (h : 2 ≤ (findMatch s).fnd.bestLen) :
    ∃ c, (findMatch s).fnd.bestSrc = some c := by
  have hs := findScan_scanned s
  unfold findMatch at h ⊢
  simp only [setFnd_fnd, findNormalise] at h ⊢
  split at h
  · simp at h
  · rw [if_neg ‹_›]
    rcases hs.best with ⟨-, h0⟩ | ⟨c, -, hc, -⟩
    · omega
    · exact ⟨c, hc⟩

/-- The length FIND reports is below `F.lim` (R107): a match never covers the last byte of the input. -/
theorem findMatch_bestLen_lt (s : State) :
    (findMatch s).fnd.bestLen ≤ min (s.inLen - s.enc.dst) s.params.matchLimit - 1 := by
  have hs := findScan_scanned s
  unfold findMatch
  simp only [setFnd_fnd, findNormalise]
  split
  · simp
  · rcases hs.best with ⟨-, h0⟩ | ⟨c, -, -, hc, -⟩
    · omega
    · rw [← hc]; exact (candidateLength_spec _ _ _ _).1

end Sys2Proof.Machine
end

