-- ==== Sys2Proof/Laws/Invariant.lean ====
section
/-! SUPPORT. Each instruction, and each action of the Encoder, keeps the invariant of Safety.lean. -/

namespace Sys2Proof.Machine

/-! ## The commands -/

theorem not_done_of_busy {s : State} (h : s.busy = true) : statusState s.status ≠ .done := by
  rw [(busy_iff s).1 h]; decide

/-- ENCODE, from any state that is not BUSY. -/
theorem execEncode_inv {s : State} (h : Inv s) (hb : s.busy = false) :
    ∃ t, execEncode s = .next t ∧ Inv t := by
  have base := startOperation_base .encode h.base
  unfold execEncode
  rw [if_neg (by simp [hb])]
  simp only
  split
  · exact ⟨_, rfl, takeError_inv base (by decide) (Nat.two_pow_pos _)⟩
  · rename_i hn
    have hn' : s.inLen ≤ s.params.inCap := Nat.le_of_not_lt hn
    refine ⟨_, rfl, ⟨base.params, base.status, ?_, ?_, fun _ => ?_, fun hd => ?_, fun hd => ?_⟩⟩
    · exact { startOperation_widths .encode h.widths with
        encDst := Nat.two_pow_pos _, encRunLen := by simp, encHdr := fun _ hv => nomatch hv
        encOlen := Nat.two_pow_pos _ }
    · exact { startOperation_memories .encode h.memories with }
    · exact ⟨hn', Nat.zero_le _, Nat.zero_le _, fun a => by simp [readCell], fun _ => rfl,
        fun ho => absurd ho (by simp)⟩
    · simp [decoding_iff] at hd
    · simp at hd

/-- DECODE, from any state that is not BUSY. -/
theorem execDecode_inv {s : State} (h : Inv s) (hb : s.busy = false) :
    ∃ t, execDecode s = .next t ∧ Inv t := by
  have base := startOperation_base .decode h.base
  unfold execDecode
  rw [if_neg (by simp [hb])]
  simp only
  split
  · exact ⟨_, rfl, takeError_inv base (by decide) (Nat.two_pow_pos _)⟩
  · rename_i hn
    have hn' : s.inLen ≤ s.params.inCap := Nat.le_of_not_lt hn
    refine ⟨_, rfl, ⟨base.params, base.status, ?_, ?_, fun hd => ?_, fun _ => ?_, fun hd => ?_⟩⟩
    · exact { startOperation_widths .decode h.widths with
        decSrc := Nat.two_pow_pos _, decDst := Nat.two_pow_pos _ }
    · exact { startOperation_memories .decode h.memories with }
    · simp [encoding_iff] at hd
    · exact ⟨hn', Nat.zero_le _, Nat.zero_le _, fun a => by simp [readCell]⟩
    · simp at hd

/-! ## The tokens -/

theorem Inv.busy_of_decoding {s : State} (hd : s.decoding = true) : statusState s.status = .busy :=
  ((decoding_iff s).1 hd).1

theorem execEnd_inv {s : State} (h : Inv s) (hd : s.decoding = true) :
    Inv (completeOperation s.dec.dst s) :=
  completeOperation_inv h.base h.widths h.memories (Inv.busy_of_decoding hd) (h.decoder hd).dst
    fun a ha => ((h.decoder hd).written a).2 ha

/-- A state that the Decoder reaches by advancing its cursors over bytes it has written. -/
theorem decoder_advance_inv {s t : State} (h : Inv s) (hd : s.decoding = true) (hf : DecoderFrame s t)
    (hwf : t.outMem.wf) (hbound : ∀ c ∈ t.outMem, c.1 < s.params.outCap) (hsrc : t.dec.src ≤ s.inLen)
    (hdst : t.dec.dst ≤ s.params.outCap) (hcnt : t.dec.cnt < 2 ^ 8)
    (hoff : -(2 ^ s.params.cursorBits : Int) ≤ t.dec.off ∧ t.dec.off < (2 ^ s.params.cursorBits : Int))
    (hwritten : ∀ a, (readCell t.outMem a).isSome ↔ a < t.dec.dst) : Inv t := by
  have hp := h.params
  have hi := (h.decoder hd).inLen
  have hw := h.widths
  have hm := h.memories
  have hd' : t.decoding = true := by rw [hf]; exact hd
  have hb : t.busy = true := by rw [busy_iff]; exact ((decoding_iff t).1 hd').1
  rw [hf]
  rw [hf] at hd' hb
  exact
    { params := hp
      status := h.status
      widths := { hw with
        decSrc := Nat.lt_of_le_of_lt hsrc (Nat.lt_of_le_of_lt hi hp.2.2.2.2.1)
        decDst := Nat.lt_of_le_of_lt hdst hp.2.2.2.2.2
        decOffLow := hoff.1
        decOffHigh := hoff.2
        decCnt := hcnt }
      memories := ⟨hm.inWf, hwf, hm.inBound, hbound, hm.inEpoch, hm.outEpoch⟩
      encoder := fun he => by
        have := ((decoding_iff _).1 hd').2
        rw [((encoding_iff _).1 he).2] at this
        cases this
      decoder := fun _ => ⟨hi, hsrc, hdst, hwritten⟩
      output := fun hdone => absurd hdone (not_done_of_busy hb) }

theorem execLit_inv {s : State} (payload : List Byte) (h : Inv s) (hd : s.decoding = true) :
    ∃ t, execLit payload s = .next t ∧ Inv t := by
  have hw := h.widths
  have hpos : s.dec.src < 2 ^ s.params.cursorBits := hw.decSrc
  unfold execLit
  split
  · exact ⟨_, rfl, takeError_inv h.base (by decide) hpos⟩
  split
  · exact ⟨_, rfl, takeError_inv h.base (by decide) hpos⟩
  rename_i h1 h2
  refine ⟨_, rfl, ?_⟩
  have hf := copyLiteral_frame payload (s.setDec { s.dec with cnt := payload.length })
  refine decoder_advance_inv h hd ((show DecoderFrame s _ from rfl).trans (hf.trans rfl)) ?_ ?_ ?_ ?_ ?_ ?_ ?_
  · exact copyLiteral_wf payload h.memories.outWf
  · exact copyLiteral_bound payload h.memories.outBound (by simp only [setDec_dec]; omega)
  · simp only [setDec_dec, copyLiteral_dec]; omega
  · simp only [setDec_dec, copyLiteral_dec]; omega
  · simp [copyLiteral_dec]
  · simp only [setDec_dec, copyLiteral_dec]; exact ⟨hw.decOffLow, hw.decOffHigh⟩
  · intro a
    have hwr := (h.decoder hd).written a
    simp only [setDec_dec, setDec_outMem, copyLiteral_dec, copyLiteral_isSome, hwr]
    omega

theorem execMatch_inv {s : State} (m : BitVec 7) (d : Byte) (h : Inv s) (hd : s.decoding = true) :
    ∃ t, execMatch m d s = .next t ∧ Inv t := by
  have hw := h.widths
  have hpos : s.dec.src < 2 ^ s.params.cursorBits := hw.decSrc
  have hlen := matchLength_bounds m
  have hdist := matchDistance_bounds d
  have hoff := matchOffset_eq s.dec.dst d
  unfold execMatch
  split
  · exact ⟨_, rfl, takeError_inv h.base (by decide) hpos⟩
  simp only
  split
  · exact ⟨_, rfl, takeError_inv h.base (by decide) hpos⟩
  split
  · exact ⟨_, rfl, takeError_inv h.base (by decide) hpos⟩
  rename_i h1 h2 h3
  refine ⟨_, rfl, ?_⟩
  have hcap : (s.params.outCap : Int) < 2 ^ s.params.cursorBits := by
    have := h.params.2.2.2.2.2
    exact_mod_cast this
  have hf := copyMatch_frame (matchLength m)
    (s.setDec { s.dec with off := matchOffset s.dec.dst d, cnt := matchLength m })
  refine decoder_advance_inv h hd ((show DecoderFrame s _ from rfl).trans (hf.trans rfl)) ?_ ?_ ?_ ?_ ?_ ?_ ?_
  · exact copyMatch_wf _ h.memories.outWf
  · exact copyMatch_bound _ h.memories.outBound (by simp only [setDec_dec]; omega)
  · simp only [setDec_dec, copyMatch_dec]; omega
  · simp only [setDec_dec, copyMatch_dec]; omega
  · simp [copyMatch_dec]
  · simp only [setDec_dec, copyMatch_dec]
    constructor <;> omega
  · intro a
    have hwr := (h.decoder hd).written a
    simp only [setDec_dec, setDec_outMem, copyMatch_dec, copyMatch_isSome, hwr]
    omega

/-! ## The Encoder -/

theorem EncoderOk.hdr {s : State} (h : EncoderOk s) (ho : s.enc.isOpen = true) : ∃ x, s.enc.hdr = some x := by
  obtain ⟨-, -, x, hx, -⟩ := h.opened ho
  exact ⟨x, hx⟩

/-- What an action of the Encoder needs and keeps: the invariant, of a state where the Encoder runs. -/
structure Encoding (s : State) : Prop where
  inv : Inv s
  runs : s.encoding = true

theorem Encoding.ok {s : State} (h : Encoding s) : EncoderOk s := h.inv.encoder h.runs

/-- An error an action raises from a state within the Encoder's frame. -/
theorem encoder_error_inv {s u : State} (h : Encoding s) (hf : EncoderFrame s u) :
    Inv (takeError .outputOverflow s.enc.dst u) :=
  takeError_inv (hf.base h.inv.base) (by decide) (by rw [hf.params]; exact h.inv.widths.encDst)

/-- A state within the Encoder's frame whose registers are in range. -/
theorem encoder_advance {s t : State} (h : Encoding s) (hf : EncoderFrame s t)
    (hwf : t.outMem.wf) (hbound : ∀ c ∈ t.outMem, c.1 < s.params.outCap) (hfits : FinderFits s.params t.fnd)
    (hlit : t.enc.runLen ≤ Config.litMax) (hok : EncoderOk t) : Encoding t := by
  have hp := h.inv.params
  have hw := h.inv.widths
  have hm := h.inv.memories
  have he : t.encoding = true := by rw [hf.eq]; exact h.runs
  have hb : t.busy = true := (busy_iff t).2 ((encoding_iff t).1 he).1
  have h1 : t.enc.dst < 2 ^ s.params.cursorBits := by
    have := hok.dst; have := hok.inLen; rw [hf.inLen] at *; rw [hf.params] at *
    have := hp.2.2.2.2.1; omega
  have h2 : t.enc.olen < 2 ^ s.params.cursorBits := by
    have := hok.olen; rw [hf.params] at *
    have := hp.2.2.2.2.2; omega
  have h3 : FitsOrBottom t.enc.hdr (2 ^ s.params.cursorBits) := fun v hv => by
    cases ho : t.enc.isOpen with
    | false => rw [hok.closed ho] at hv; cases hv
    | true =>
      obtain ⟨-, -, x, hx, hs⟩ := hok.opened ho
      rw [hx] at hv; cases hv; omega
  refine ⟨?_, he⟩
  have hd : t.decoding = true → DecoderOk t := fun hdd => by
    have := ((decoding_iff _).1 hdd).2
    rw [((encoding_iff _).1 he).2] at this
    cases this
  have ho : statusState t.status = .done → OutputOk t := fun hdone => absurd hdone (not_done_of_busy hb)
  have hwid : Widths t := by
    rw [hf.eq]
    exact { hw with
      encDst := h1, encOlen := h2, encHdr := h3
      encRunLen := by simp only [Config.litMax] at hlit; show t.enc.runLen < 2 ^ 7; omega
      fndD := hfits.d, fndLim := hfits.lim, fndS := hfits.s, fndNum := hfits.num
      fndBestLen := hfits.bestLen, fndBestSrc := hfits.bestSrc }
  have hmem : MemoriesOk t := by
    rw [hf.eq]
    exact ⟨hm.inWf, hwf, hm.inBound, hbound, Nat.lt_of_lt_of_le hm.inEpoch hf.fresh,
      Nat.lt_of_lt_of_le hm.outEpoch hf.fresh⟩
  exact ⟨by rw [hf.params]; exact hp, by rw [hf.status]; exact h.inv.status, hwid, hmem, fun _ => hok, hd, ho⟩

theorem Encoding.fits {s : State} (h : Encoding s) : FinderFits s.params s.fnd :=
  ⟨h.inv.widths.fndD, h.inv.widths.fndLim, h.inv.widths.fndS, h.inv.widths.fndNum, h.inv.widths.fndBestLen,
    h.inv.widths.fndBestSrc⟩

theorem findMatch_encoding {s : State} (h : Encoding s) : Encoding (findMatch s) := by
  have hok := h.ok
  have hr := h.inv.widths.encRunLen
  refine encoder_advance h (by rw [findMatch_frame]; exact ⟨rfl, Nat.le_refl _⟩) ?_ ?_ ?_ ?_ ?_
  · rw [findMatch_frame]; exact h.inv.memories.outWf
  · rw [findMatch_frame]; exact h.inv.memories.outBound
  · exact findMatch_fits h.inv.params h.inv.widths
  · simp only [findMatch_enc, Config.litMax]; omega
  · rw [findMatch_frame]; exact ⟨hok.inLen, hok.dst, hok.olen, hok.written, hok.closed, hok.opened⟩

/-- The bytes written after a run is closed: the same ones, since its header stands below `E.olen`. -/
theorem closed_written {s : State} (hok : EncoderOk s) (a : Nat) :
    (readCell (closed s).outMem a).isSome ↔ a < s.enc.olen := by
  unfold closed
  split
  · rename_i ho
    obtain ⟨-, -, x, hx, hs⟩ := hok.opened ho
    simp only [setEnc_outMem, storeOut_outMem, readCell_writeCell, hx, Option.getD_some]
    split
    · simp only [Option.isSome_some, true_iff]; omega
    · exact hok.written a
  · exact hok.written a

theorem closed_memory {s : State} (h : Encoding s) :
    (closed s).outMem.wf ∧ ∀ c ∈ (closed s).outMem, c.1 < s.params.outCap := by
  have hok := h.ok
  unfold closed
  split
  · rename_i ho
    obtain ⟨-, -, x, hx, hs⟩ := hok.opened ho
    have := hok.olen
    exact ⟨writeCell_wf _ _ h.inv.memories.outWf,
      writeCell_bound _ (by rw [hx]; simp only [Option.getD_some]; omega) h.inv.memories.outBound⟩
  · exact ⟨h.inv.memories.outWf, h.inv.memories.outBound⟩

theorem closed_hdr {s : State} (hok : EncoderOk s) : (closed s).enc.hdr = none := by
  unfold closed
  split
  · rfl
  · exact hok.closed (by simpa using ‹¬s.enc.isOpen = true›)

theorem closed_encoding {s : State} (h : Encoding s) : Encoding (closed s) := by
  have hok := h.ok
  have hr := h.inv.widths.encRunLen
  have hf := closed_frame s
  refine encoder_advance h hf (closed_memory h).1 (closed_memory h).2 ?_ ?_ ?_
  · simpa using h.fits
  · simp only [closed_runLen, Config.litMax]; omega
  · exact ⟨by rw [hf.inLen, hf.params]; exact hok.inLen, by rw [hf.inLen, closed_dst]; exact hok.dst,
      by rw [hf.params, closed_olen]; exact hok.olen, fun a => by rw [closed_olen]; exact closed_written hok a,
      fun _ => closed_hdr hok, fun ho => by simp at ho⟩

theorem splitRun_encoding {s : State} (h : Encoding s) : Encoding (splitRun s) := by
  unfold splitRun
  split
  · exact closed_encoding h
  · exact h

/-- After `SplitIfFull()` an open run has room for one byte more. -/
theorem splitRun_room (s : State) :
    (splitRun s).enc.isOpen = true → (splitRun s).enc.runLen ≠ Config.litMax := by
  unfold splitRun
  split
  · simp
  · rename_i h
    intro ho hr
    exact h (by simp [ho, hr])

/-- `EmitLiteral()` of an input byte, when the bytes fit. -/
theorem literalEmitted_encoding {s : State} (h : Encoding s) (hn : s.enc.dst < s.inLen)
    (hr : s.enc.isOpen = true → s.enc.runLen ≠ Config.litMax)
    (h1 : s.enc.isOpen = false → s.enc.olen ≠ s.params.outCap)
    (h2 : (opened s).enc.olen ≠ s.params.outCap) : Encoding (literalEmitted s) := by
  have hok := h.ok
  have hf := literalEmitted_frame s
  have hcap := hok.olen
  cases ho : s.enc.isOpen with
  | true =>
    obtain ⟨hr1, hr2, x, hx, hs⟩ := hok.opened ho
    have hr3 := hr ho
    have e : opened s = s := by unfold opened; rw [if_pos ho]
    rw [e] at h2
    have hl : literalEmitted s = (s.storeOut s.enc.olen (s.inByte s.enc.dst)).setEnc
        { s.enc with olen := s.enc.olen + 1, runLen := s.enc.runLen + 1, dst := s.enc.dst + 1 } := by
      unfold literalEmitted; rw [e]
    refine encoder_advance h hf ?_ ?_ ?_ ?_ ?_
    · rw [hl]; exact writeCell_wf _ _ h.inv.memories.outWf
    · rw [hl]; exact writeCell_bound _ (by omega) h.inv.memories.outBound
    · rw [hl]; exact h.fits
    · rw [hl]; simp only [setEnc_enc]; omega
    · rw [hl]
      refine ⟨hok.inLen, hn, ?_, fun a => ?_, fun hc => ?_, fun _ => ⟨?_, ?_, x, hx, ?_⟩⟩
      · simp only [setEnc_enc, setEnc_params, storeOut_params]; omega
      · have := hok.written a
        simp only [setEnc_enc, setEnc_outMem, storeOut_outMem, readCell_writeCell]
        split
        · simp only [Option.isSome_some, true_iff]; omega
        · rw [this]; omega
      · simp [ho] at hc
      · simp
      · simp only [setEnc_enc]; omega
      · simp only [setEnc_enc]; omega
  | false =>
    have h3 := h1 ho
    have e : opened s = { (s.storeOut s.enc.olen (Config.freeByte s.fresh)) with
        enc := { s.enc with hdr := some s.enc.olen, olen := s.enc.olen + 1, isOpen := true, runLen := 0 }
        fresh := s.fresh + 1 } := by
      unfold opened; rw [if_neg (by simp [ho])]
    have h4 : s.enc.olen + 1 ≠ s.params.outCap := by rw [e] at h2; exact h2
    have hmem : (literalEmitted s).outMem = writeCell (writeCell s.outMem s.enc.olen (Config.freeByte s.fresh))
        (s.enc.olen + 1) (s.inByte s.enc.dst) := by
      unfold literalEmitted; rw [e]; rfl
    have henc : (literalEmitted s).enc = Encoder.mk (s.enc.dst + 1) true 1 (some s.enc.olen) (s.enc.olen + 2) := by
      unfold literalEmitted; rw [e]; rfl
    have hfnd : (literalEmitted s).fnd = s.fnd := by
      unfold literalEmitted; rw [e]; rfl
    refine encoder_advance h hf ?_ ?_ ?_ ?_ ?_
    · rw [hmem]; exact writeCell_wf _ _ (writeCell_wf _ _ h.inv.memories.outWf)
    · rw [hmem]
      exact writeCell_bound _ (by omega) (writeCell_bound _ (by omega) h.inv.memories.outBound)
    · rw [hfnd]; exact h.fits
    · rw [henc]; simp [Config.litMax]
    · refine ⟨by rw [hf.inLen, hf.params]; exact hok.inLen, by rw [hf.inLen, henc]; exact hn,
        by rw [hf.params, henc]; show s.enc.olen + 2 ≤ _; omega, fun a => ?_, fun hc => ?_, fun _ => ?_⟩
      · have := hok.written a
        rw [hmem, henc]
        simp only [readCell_writeCell]
        by_cases ha1 : a = s.enc.olen + 1
        · rw [if_pos ha1]; simp only [Option.isSome_some, true_iff]; omega
        · rw [if_neg ha1]
          by_cases ha2 : a = s.enc.olen
          · rw [if_pos ha2]; simp only [Option.isSome_some, true_iff]; omega
          · rw [if_neg ha2, this]; omega
      · rw [henc] at hc; cases hc
      · rw [henc]; exact ⟨le_refl _, by show 1 ≤ 127; omega, s.enc.olen, rfl, rfl⟩

/-- `EmitMatch(L, S)`, when the two bytes fit and the match ends within the input. -/
theorem matchEmitted_encoding {s : State} (len src : Nat) (h : Encoding s) (hl : s.enc.dst + len ≤ s.inLen)
    (h1 : s.enc.olen ≠ s.params.outCap) (h2 : s.enc.olen + 1 ≠ s.params.outCap) :
    Encoding (matchEmitted len src s) := by
  have hok := h.ok
  have hcap := hok.olen
  have hf := matchEmitted_frame len src s
  have hmem : (matchEmitted len src s).outMem = writeCell (writeCell (closed s).outMem s.enc.olen
      (matchHeader (matchField len))) (s.enc.olen + 1) (distanceByte src s.enc.dst) := by
    simp [matchEmitted]
  have henc : (matchEmitted len src s).enc = Encoder.mk (s.enc.dst + len) false s.enc.runLen none (s.enc.olen + 2) := by
    simp [matchEmitted, closed_hdr hok]
  have hfnd : (matchEmitted len src s).fnd = s.fnd := by simp [matchEmitted]
  have hr := h.inv.widths.encRunLen
  refine encoder_advance h hf ?_ ?_ ?_ ?_ ?_
  · rw [hmem]; exact writeCell_wf _ _ (writeCell_wf _ _ (closed_memory h).1)
  · rw [hmem]; exact writeCell_bound _ (by omega) (writeCell_bound _ (by omega) (closed_memory h).2)
  · rw [hfnd]; exact h.fits
  · rw [henc]; simp only [Config.litMax]; omega
  · refine ⟨by rw [hf.inLen, hf.params]; exact hok.inLen, by rw [hf.inLen, henc]; exact hl,
      by rw [hf.params, henc]; show s.enc.olen + 2 ≤ _; omega, fun a => ?_, fun _ => by rw [henc], fun hc => ?_⟩
    · have := closed_written hok a
      rw [hmem, henc]
      simp only [readCell_writeCell]
      by_cases ha1 : a = s.enc.olen + 1
      · rw [if_pos ha1]; simp only [Option.isSome_some, true_iff]; omega
      · rw [if_neg ha1]
        by_cases ha2 : a = s.enc.olen
        · rw [if_pos ha2]; simp only [Option.isSome_some, true_iff]; omega
        · rw [if_neg ha2, this]; omega
    · rw [henc] at hc; cases hc

end Sys2Proof.Machine
end

