-- ==== Sys2Proof/Laws/PerInstr.lean ====
section
/-! SUPPORT. What holds of every instruction as syntax, one lemma for each constructor. -/

namespace Sys2Proof.Laws.EncodeLength

/-- A well-formed instruction has at least one byte, and a token has the length its header byte tells (30_encoding.md
R73). -/
def Statement (i : Instr) : Prop :=
  i.wellFormed = true →
    1 ≤ (encode i).length ∧ (i.isToken = true → (encode i).length = tokenLength ((encode i).headD 0x00#8))

theorem tokEnd : Statement .tokEnd := fun _ => by decide

theorem tokLit (payload : List Byte) : Statement (.tokLit payload) := by
  intro h
  simp only [Instr.wellFormed, Bool.and_eq_true, decide_eq_true_eq] at h
  refine ⟨by simp [encode], fun _ => ?_⟩
  have hk : ∀ k, 1 ≤ k → k ≤ 127 → tokenLength (litHeader k) = k + 1 := by decide
  simpa [encode] using (hk payload.length h.1 h.2).symm

theorem tokMatch (m : BitVec 7) (d : Byte) : Statement (.tokMatch m d) := by
  intro _
  refine ⟨by simp [encode], fun _ => ?_⟩
  have hm : ∀ m : BitVec 7, tokenLength (matchHeader m) = 2 := by decide
  simpa [encode] using (hm m).symm

theorem cmdEncode : Statement .cmdEncode := fun _ => by decide

theorem cmdDecode : Statement .cmdDecode := fun _ => by decide

end Sys2Proof.Laws.EncodeLength
end

