-- ==== Sys2Proof/Laws/Step.lean ====
section
/-! SUPPORT. Everything a step of the block can do, said once for each agent (inversion lemmas). -/

namespace Sys2Proof.Machine

/-! ## The Encoder -/

/-- What an action of the Encoder from `s` can lead to, from any state: within the Encoder's frame, or to OUTPUT_OVERFLOW
raised from within it. -/
def FlowWithin (s : State) : Flow → Prop
  | .go t => EncoderFrame s t
  | .raised t => ∃ pos u, t = takeError .outputOverflow pos u ∧ EncoderFrame s u
  | .stuck _ => True

theorem FlowWithin.mono {s t : State} {x : Flow} (h : EncoderFrame s t) (hx : FlowWithin t x) : FlowWithin s x := by
  cases x with
  | go u => exact h.trans hx
  | raised u => obtain ⟨pos, v, e, hv⟩ := hx; exact ⟨pos, v, e, h.trans hv⟩
  | stuck r => trivial

theorem FlowWithin.andThen {s : State} {x : Flow} {f : State → Flow} (hx : FlowWithin s x)
    (hf : ∀ t, FlowWithin t (f t)) : FlowWithin s (x.andThen f) := by
  cases x with
  | go t => exact FlowWithin.mono hx (hf t)
  | raised t => exact hx
  | stuck r => trivial

theorem setEnc_within (e : Encoder) (s : State) : FlowWithin s (.go (s.setEnc e)) := by
  exact (⟨rfl, Nat.le_refl _⟩ : EncoderFrame s (s.setEnc e))

theorem appendByte_within (v : Byte) (s : State) : FlowWithin s (appendByte v s) := by
  by_cases h : s.enc.olen = s.params.outCap
  · rw [appendByte_raised v h]; exact ⟨_, s, rfl, EncoderFrame.refl s⟩
  · rw [appendByte_go v h]; show EncoderFrame s _; exact ⟨rfl, Nat.le_refl _⟩

theorem finalizeRun_within (s : State) : FlowWithin s (finalizeRun s) := by
  cases h : s.enc.hdr with
  | none => rw [finalizeRun_stuck h]; trivial
  | some x => rw [finalizeRun_go h]; show EncoderFrame s _; exact ⟨rfl, Nat.le_refl _⟩

theorem finalizeIfOpen_within (s : State) : FlowWithin s (finalizeIfOpen s) := by
  unfold finalizeIfOpen
  split
  · exact finalizeRun_within s
  · exact EncoderFrame.refl s

theorem splitIfFull_within (s : State) : FlowWithin s (splitIfFull s) := by
  unfold splitIfFull
  split
  · exact finalizeRun_within s
  · exact EncoderFrame.refl s

theorem openRunIfClosed_within (s : State) : FlowWithin s (openRunIfClosed s) := by
  unfold openRunIfClosed
  split
  · exact EncoderFrame.refl s
  · exact FlowWithin.mono (⟨rfl, Nat.le_succ _⟩ : EncoderFrame s (reserveHeader s))
      ((appendByte_within _ _).andThen fun t => setEnc_within _ t)

theorem emitLiteral_within (s : State) : FlowWithin s (emitLiteral s) :=
  (openRunIfClosed_within s).andThen fun t =>
    (appendByte_within _ t).andThen fun u => setEnc_within _ u

theorem emitMatch_within (len src : Nat) (s : State) : FlowWithin s (emitMatch len src s) :=
  (finalizeIfOpen_within s).andThen fun t =>
    (appendByte_within _ t).andThen fun u =>
      (appendByte_within _ u).andThen fun v => setEnc_within _ v

theorem encodeIteration_within (s : State) : FlowWithin s (encodeIteration s) := by
  have hf : EncoderFrame s (findMatch s) := ⟨rfl, Nat.le_refl _⟩
  unfold encodeIteration
  simp only
  split
  · split
    · trivial
    · exact FlowWithin.mono hf (emitMatch_within _ _ _)
  · exact FlowWithin.mono hf ((splitIfFull_within _).andThen emitLiteral_within)

/-- A step of the Encoder, from any state: an iteration within its frame, completion, OUTPUT_OVERFLOW, or the fault of a
read of ⊥. -/
theorem encoderStep_cases (s : State) :
    (∃ t, encoderStep s = .next t ∧ EncoderFrame s t) ∨
    (∃ u len, encoderStep s = .next (completeOperation len u) ∧ EncoderFrame s u) ∨
    (∃ u pos, encoderStep s = .next (takeError .outputOverflow pos u) ∧ EncoderFrame s u) ∨
    ∃ r, encoderStep s = .fault r := by
  unfold encoderStep
  split
  · have h := encodeIteration_within s
    cases e : encodeIteration s with
    | go t => rw [e] at h; exact .inl ⟨t, rfl, h⟩
    | raised t =>
      rw [e] at h
      obtain ⟨pos, u, rfl, hu⟩ := h
      exact .inr (.inr (.inl ⟨u, pos, rfl, hu⟩))
    | stuck r => exact .inr (.inr (.inr ⟨r, rfl⟩))
  · unfold finishEncode
    have h := finalizeIfOpen_within s
    cases e : finalizeIfOpen s with
    | go t =>
      rw [e] at h
      rw [Flow.go_andThen]
      have h' := appendByte_within Config.terminator t
      cases e' : appendByte Config.terminator t with
      | go u => rw [e'] at h'; exact .inr (.inl ⟨u, _, rfl, EncoderFrame.trans h h'⟩)
      | raised u =>
        rw [e'] at h'
        obtain ⟨pos, v, rfl, hv⟩ := h'
        exact .inr (.inr (.inl ⟨v, pos, rfl, EncoderFrame.trans h hv⟩))
      | stuck r => exact .inr (.inr (.inr ⟨r, rfl⟩))
    | raised t =>
      rw [e] at h
      obtain ⟨pos, u, rfl, hu⟩ := h
      exact .inr (.inr (.inl ⟨u, pos, rfl, hu⟩))
    | stuck r => exact .inr (.inr (.inr ⟨r, rfl⟩))

/-! ## The Decoder -/

/-- What the token decoder answers with is a token; a LIT has 1 to `LIT_MAX` payload bytes. -/
theorem decodeToken_token {bytes : List Byte} {i : Instr} {rest : List Byte}
    (e : decodeToken bytes = .instr i rest) :
    i = .tokEnd ∨ (∃ p, i = .tokLit p ∧ 1 ≤ p.length ∧ p.length ≤ Config.litMax) ∨ ∃ m d, i = .tokMatch m d := by
  unfold decodeToken at e
  split at e
  · cases e
  split at e
  · cases e; exact .inl rfl
  split at e
  · split at e
    · cases e
    · cases e; exact .inr (.inr ⟨_, _, rfl⟩)
  simp only at e
  split at e
  · cases e
  · rename_i h r h0 h7 hl
    cases e
    obtain ⟨-, h1, h2⟩ := litHeader_headerField h0 (by simpa using h7)
    exact .inr (.inl ⟨_, rfl, by rw [List.length_take]; omega, by rw [List.length_take]; omega⟩)

/-- A rejected token raises one of the three errors of a token that is not there whole. -/
theorem decodeToken_rejected {bytes : List Byte} {why : Reject} (e : decodeToken bytes = .rejected why) :
    rejectCause why ≠ .none := by
  unfold decodeToken at e
  split at e
  · cases e; decide
  split at e
  · cases e
  split at e
  · split at e
    · cases e; decide
    · cases e
  simp only at e
  split at e
  · cases e; decide
  · cases e

/-- The state after a LIT that raises no error. -/
def literalCopied (payload : List Byte) (s : State) : State :=
  let t := copyLiteral payload (s.setDec { s.dec with cnt := payload.length })
  t.setDec { t.dec with src := t.dec.src + 1 + payload.length }

/-- The state after a MATCH that raises no error. -/
def matchCopied (m : BitVec 7) (d : Byte) (s : State) : State :=
  let t := copyMatch (matchLength m)
    (s.setDec { s.dec with off := matchOffset s.dec.dst d, cnt := matchLength m })
  t.setDec { t.dec with src := t.dec.src + 2 }

theorem literalCopied_frame (payload : List Byte) (s : State) : DecoderFrame s (literalCopied payload s) :=
  (show DecoderFrame s (s.setDec { s.dec with cnt := payload.length }) from rfl).trans
    ((copyLiteral_frame payload _).trans rfl)

theorem literalCopied_dec (payload : List Byte) (s : State) :
    (literalCopied payload s).dec = Decoder.mk (s.dec.src + 1 + payload.length)
      (s.dec.dst + payload.length) s.dec.off 0 := by
  simp [literalCopied, copyLiteral_dec]

theorem literalCopied_outByte (payload : List Byte) (s : State) (a : Nat) :
    (literalCopied payload s).outByte a =
      if s.dec.dst ≤ a ∧ a < s.dec.dst + payload.length then payload.getD (a - s.dec.dst) 0
      else s.outByte a := by
  unfold literalCopied
  rw [setDec_outByte, copyLiteral_outByte]
  rfl

theorem matchCopied_frame (m : BitVec 7) (d : Byte) (s : State) : DecoderFrame s (matchCopied m d s) :=
  (show DecoderFrame s (s.setDec { s.dec with off := matchOffset s.dec.dst d, cnt := matchLength m }) from
    rfl).trans ((copyMatch_frame _ _).trans rfl)

theorem matchCopied_dec (m : BitVec 7) (d : Byte) (s : State) :
    (matchCopied m d s).dec = Decoder.mk (s.dec.src + 2) (s.dec.dst + matchLength m)
      (matchOffset s.dec.dst d + matchLength m) 0 := by
  simp [matchCopied, copyMatch_dec]

theorem matchCopied_outside (m : BitVec 7) (d : Byte) (s : State) (a : Nat)
    (h : a < s.dec.dst ∨ s.dec.dst + matchLength m ≤ a) : (matchCopied m d s).outByte a = s.outByte a := by
  unfold matchCopied
  rw [setDec_outByte]
  exact copyMatch_outside (matchLength m)
    (s.setDec { s.dec with off := matchOffset s.dec.dst d, cnt := matchLength m }) a h

/-- Each copied byte is the one `dist` indices before it, after the MATCH. -/
theorem matchCopied_inside (m : BitVec 7) (d : Byte) (s : State) {o : Nat} (ho : matchOffset s.dec.dst d = o)
    {i : Nat} (hi : i < matchLength m) :
    (matchCopied m d s).outByte (s.dec.dst + i) = (matchCopied m d s).outByte (o + i) := by
  unfold matchCopied
  have hlt : o < s.dec.dst := by
    have := matchOffset_eq s.dec.dst d
    have := matchDistance_bounds d
    omega
  exact copyMatch_inside (matchLength m)
    (s.setDec { s.dec with off := matchOffset s.dec.dst d, cnt := matchLength m }) ho hlt i hi

theorem execLit_cases (payload : List Byte) (s : State) :
    (∃ c, c ≠ .none ∧ execLit payload s = .next (takeError c s.dec.src s)) ∨
    (execLit payload s = .next (literalCopied payload s) ∧ s.dec.src + payload.length < s.inLen ∧
      s.dec.dst + payload.length ≤ s.params.outCap) := by
  unfold execLit
  split
  · exact .inl ⟨_, by decide, rfl⟩
  split
  · exact .inl ⟨_, by decide, rfl⟩
  · exact .inr ⟨rfl, by omega, by omega⟩

theorem execMatch_cases (m : BitVec 7) (d : Byte) (s : State) :
    (∃ c, c ≠ .none ∧ execMatch m d s = .next (takeError c s.dec.src s)) ∨
    (execMatch m d s = .next (matchCopied m d s) ∧ s.dec.src + 1 < s.inLen ∧
      0 ≤ matchOffset s.dec.dst d ∧ s.dec.dst + matchLength m ≤ s.params.outCap) := by
  unfold execMatch
  split
  · exact .inl ⟨_, by decide, rfl⟩
  simp only
  split
  · exact .inl ⟨_, by decide, rfl⟩
  split
  · exact .inl ⟨_, by decide, rfl⟩
  · exact .inr ⟨rfl, by omega, by omega, by omega⟩

/-- A step of the Decoder, from any state: an error at `D.src`, END, a LIT or a MATCH. -/
theorem decoderStep_cases (s : State) :
    (∃ c, c ≠ .none ∧ decoderStep s = .next (takeError c s.dec.src s)) ∨
    decoderStep s = .next (completeOperation s.dec.dst s) ∨
    (∃ p, decoderStep s = .next (literalCopied p s) ∧ 1 ≤ p.length ∧ p.length ≤ Config.litMax ∧
      s.dec.src + p.length < s.inLen ∧ s.dec.dst + p.length ≤ s.params.outCap) ∨
    (∃ m d, decoderStep s = .next (matchCopied m d s) ∧ s.dec.src + 1 < s.inLen ∧
      0 ≤ matchOffset s.dec.dst d ∧ s.dec.dst + matchLength m ≤ s.params.outCap) := by
  unfold decoderStep
  split
  · rename_i i rest e
    rcases decodeToken_token e with rfl | ⟨p, rfl, h1, h2⟩ | ⟨m, d, rfl⟩
    · exact .inr (.inl rfl)
    · rcases execLit_cases p s with h | h
      · exact .inl h
      · exact .inr (.inr (.inl ⟨p, h.1, h1, h2, h.2⟩))
    · rcases execMatch_cases m d s with h | h
      · exact .inl h
      · exact .inr (.inr (.inr ⟨m, d, h⟩))
  · exact .inl ⟨_, decodeToken_rejected ‹_›, rfl⟩

/-! ## Which agent a step of the block runs -/

theorem blockStep_encoding {s : State} (h : s.encoding = true) : blockStep s = encoderStep s := by
  simp [blockStep, h]

theorem blockStep_decoding {s : State} (h : s.decoding = true) : blockStep s = decoderStep s := by
  have hb : s.busy = true := (busy_iff s).2 ((decoding_iff s).1 h).1
  rcases busy_cases hb with ⟨-, h'⟩ | ⟨h', -⟩
  · rw [h] at h'; cases h'
  · simp [blockStep, h', h]

theorem blockStep_not_busy {s : State} (h : s.busy = false) : blockStep s = .next s := by
  simp [blockStep, not_busy_agents h]

end Sys2Proof.Machine
end

