-- ==== Sys2Proof/Laws/Run.lean ====
section
/-! SUPPORT. Runs of the block alone. -/

namespace Sys2Proof.Machine

@[simp] theorem runBlock_zero (s : State) : runBlock 0 s = .next s := rfl

theorem runBlock_succ {s t : State} (k : Nat) (h : blockStep s = .next t) : runBlock (k + 1) s = runBlock k t := by
  simp [runBlock, h]

/-- With no operation running, nothing happens (70_reset_and_hazards.md R202). -/
theorem runBlock_not_busy {s : State} (h : s.busy = false) (k : Nat) : runBlock k s = .next s := by
  induction k with
  | zero => rfl
  | succ k ih => rw [runBlock_succ k (blockStep_not_busy h), ih]

/-- The first step of a run that reaches a state. -/
theorem runBlock_succ_cases {s t : State} {k : Nat} (h : runBlock (k + 1) s = .next t) :
    ∃ u, blockStep s = .next u ∧ runBlock k u = .next t := by
  unfold runBlock at h
  split at h
  · exact ⟨_, ‹_›, h⟩
  · cases h
  · cases h

/-- Two runs, one after the other. -/
theorem runBlock_add {s t : State} {j : Nat} (h : runBlock j s = .next t) (k : Nat) :
    runBlock (j + k) s = runBlock k t := by
  induction j generalizing s with
  | zero => cases h; rw [Nat.zero_add]
  | succ j ih =>
    obtain ⟨u, hu, h⟩ := runBlock_succ_cases h
    rw [show j + 1 + k = (j + k) + 1 by omega, runBlock_succ _ hu, ih h]

/-- What every step of the block keeps, a run keeps. -/
theorem runBlock_keeps {P : State → Prop} (hP : ∀ s t, P s → blockStep s = .next t → P t) {s t : State} {k : Nat}
    (h : P s) (hr : runBlock k s = .next t) : P t := by
  induction k generalizing s with
  | zero => cases hr; exact h
  | succ k ih =>
    obtain ⟨u, hu, hr⟩ := runBlock_succ_cases hr
    exact ih (hP s u h hu) hr

/-- A run that has reached a state in which no operation runs ends there, however many more steps it is given. -/
theorem runBlock_ended {s t : State} {j k : Nat} (h : runBlock j s = .next t) (ht : t.busy = false) (hk : j ≤ k) :
    runBlock k s = .next t := by
  rw [show k = j + (k - j) by omega, runBlock_add h, runBlock_not_busy ht]

/-- While a measure decreases with every step that leaves the block BUSY, the run ends. -/
theorem runBlock_ends {P : State → Prop} (measure : State → Nat)
    (hP : ∀ s, P s → s.busy = true →
      ∃ t, blockStep s = .next t ∧ P t ∧ (t.busy = true → measure t < measure s)) {s : State} (h : P s) :
    ∃ k t, k ≤ measure s + 1 ∧ runBlock k s = .next t ∧ P t ∧ t.busy = false := by
  generalize hm : measure s = m
  induction m using Nat.strongRecOn generalizing s with
  | ind m ih =>
    cases hb : s.busy with
    | false => exact ⟨0, s, by omega, rfl, h, hb⟩
    | true =>
      obtain ⟨t, ht, hPt, hlt⟩ := hP s h hb
      cases hb' : t.busy with
      | false => exact ⟨1, t, by omega, by rw [runBlock_succ 0 ht]; rfl, hPt, hb'⟩
      | true =>
        have hmt := hlt hb'
        obtain ⟨k, u, hk, hu, hPu, hbu⟩ := ih (measure t) (by omega) hPt rfl
        exact ⟨k + 1, u, by omega, by rw [runBlock_succ k ht, hu], hPu, hbu⟩

end Sys2Proof.Machine
end

