-- ==== Sys2Proof/Tests/Slice0.lean ====
section
/-! SUPPORT. The model's own tests: the well-formedness smoke, words written out from the spec's encodings, one step of
each instruction, and for every statement with hypotheses a concrete state and operands that meet them. Expected values
are 95_test_vectors.md's or worked by hand from the rules cited. -/

namespace Sys2Proof.Tests

open Sys2Proof Sys2Proof.Machine

/-! ## Small states -/

/-- Small memories: 8 bytes each, and the default thresholds. -/
def smallParams : Config.Params :=
  { matchLimit := 129, acceptMinOpen := 4, acceptMinClosed := 2, inCap := 8, outCap := 8, cursorBits := 4 }

/-- No operation runs, and `bytes` are the input. -/
def idle (bytes : List Byte) : State := (State.resetWith smallParams).load bytes

/-- The Decoder runs at `D.src = src`, with `out` already written. -/
def decodingAt (bytes : List Byte) (src : Nat) (out : List Byte) : State :=
  { idle bytes with
    status := 0x05#8
    dec := { src := src, dst := out.length, off := 0, cnt := 0 }
    outMem := writeCells [] 0 out }

/-- The Encoder runs at `E.dst = dst`, with `out` already appended and, if `open`, a run of `runLen` bytes open. -/
def encodingAt (bytes : List Byte) (dst : Nat) (out : List Byte) (hdr : Option Nat) (runLen : Nat) : State :=
  { idle bytes with
    status := 0x01#8
    enc := { dst := dst, isOpen := hdr.isSome, runLen := runLen, hdr := hdr, olen := out.length }
    outMem := writeCells [] 0 out }

/-- A field of the next state, `none` where there is none. -/
def after {α : Type} (f : State → α) : Host.Outcome State Fault Refusal → Option α
  | .next s => some (f s)
  | .fault _ => none
  | .refused _ => none

/-- A field of the state an Encoder action leads to when it goes on. -/
def gone {α : Type} (f : State → α) : Flow → Option α
  | .go s => some (f s)
  | .raised _ => none
  | .stuck _ => none

/-- The reason of a refusal. -/
def refusalOf : Host.Outcome State Fault Refusal → Option Refusal
  | .next _ => none
  | .fault _ => none
  | .refused r => some r

/-! ## Well-formedness -/

/-- R77: a literal run of length 0 has no encoding. -/
theorem test_lit_empty_refused : (Instr.tokLit []).wellFormed = false := by decide

set_option maxRecDepth 4000 in
/-- R71: `L` is at most 127. -/
theorem test_lit_128_refused : (Instr.tokLit (List.replicate 128 0x41#8)).wellFormed = false := by decide

set_option maxRecDepth 4000 in
theorem test_lit_127_accepted : (Instr.tokLit (List.replicate 127 0x41#8)).wellFormed = true := by decide

/-! ## Decoding: words written out from R71 and R80 -/

/-- T-END, `00000000`. -/
theorem test_decode_end : decodeToken [0b00000000#8, 0x99#8] = .instr .tokEnd [0x99#8] := by decide

/-- T-LIT, `0LLLLLLL` with `L = 0000010`, then two payload bytes, the second of them 00. -/
theorem test_decode_lit :
    decodeToken [0b00000010#8, 0x41#8, 0x00#8, 0x99#8] = .instr (.tokLit [0x41#8, 0x00#8]) [0x99#8] := by decide

/-- T-MATCH, `1MMMMMMM DDDDDDDD` with `M = 0110010` and `D = 11101110`: `MATCH 52, 18` (R82). -/
theorem test_decode_match :
    decodeToken [0b10110010#8, 0b11101110#8] = .instr (.tokMatch 0b0110010#7 0b11101110#8) [] := by decide

/-- ENCODE, `0000000 0`. -/
theorem test_decode_cmd_encode : decodeCommand 0b00000000#8 = .instr .cmdEncode [] := by decide

/-- DECODE, `0000000 1`. -/
theorem test_decode_cmd_decode : decodeCommand 0b00000001#8 = .instr .cmdDecode [] := by decide

/-- A table word: bits 7..0 are the header, bits 15..8 the distance byte. -/
theorem test_table_word_match : decodeTableWord 16 0xEEB2 = some (.tokMatch 0x32#7 0xEE#8) := by decide

set_option maxRecDepth 4000 in
/-- A table word of a LIT carries its header alone; its payload is zero bytes. -/
theorem test_table_word_lit : decodeTableWord 8 0x02 = some (.tokLit [0x00#8, 0x00#8]) := by decide

set_option maxRecDepth 4000 in
/-- The longest LIT fits behind the header. -/
theorem test_table_word_lit_longest :
    decodeTableWord 8 0x7F = some (.tokLit (List.replicate 127 0x00#8)) := by decide

/-! ## Steps -/

/-- R152: END placed as the next instruction after reset completes with no output. -/
theorem test_step_end :
    after (fun t => (t.status, t.outLen)) (step (State.reset.withFetchWord 8 0x00)) = some (0x06#8, 0) := by decide

/-- V6: END after one output byte gives `OUT_LEN = 1`, `STATUS` DONE with `OP` DECODE. -/
theorem test_step_end_length :
    after (fun t => (t.status, t.outLen, t.dec.src)) (step (decodingAt [0x01#8, 0x41#8, 0x00#8, 0x99#8] 2 [0x41#8])) =
      some (0x06#8, 1, 2) := by decide

/-- R153's example: `LIT "AB"` writes `41 42`, `D.src = 3`, `D.dst = 2`. -/
theorem test_step_lit :
    after (fun t => (t.outMem, t.dec.src, t.dec.dst)) (step (decodingAt [0x02#8, 0x41#8, 0x42#8, 0x00#8] 0 [])) =
      some ([(0, 0x41#8), (1, 0x42#8)], 3, 2) := by decide

/-- V9: the payload of `03 41 42` runs past the input: `STATUS = 27`, `ERR_SRC = 0`. -/
theorem test_step_lit_truncated :
    after (fun t => (t.status, t.errSrc)) (step (decodingAt [0x03#8, 0x41#8, 0x42#8] 0 [])) = some (0x27#8, 0) := by
  decide

/-- R155's example: `MATCH 5, 2` at `D.dst = 2` with `41 42` writes `41 42 41 42 41`. -/
theorem test_step_match :
    after (fun t => (t.outMem.map Prod.snd, t.dec.src, t.dec.dst))
      (step (decodingAt [0x83#8, 0xFE#8, 0x00#8] 0 [0x41#8, 0x42#8])) =
      some ([0x41#8, 0x42#8, 0x41#8, 0x42#8, 0x41#8, 0x42#8, 0x41#8], 2, 7) := by decide

/-- V14: `MATCH 2, 2` at `D.dst = 1` reads before the start: `STATUS = 47`, `ERR_SRC = 2`. -/
theorem test_step_match_before_start :
    after (fun t => (t.status, t.errSrc))
      (step (decodingAt [0x01#8, 0x41#8, 0x80#8, 0xFE#8, 0x00#8] 2 [0x41#8])) = some (0x47#8, 2) := by decide

/-- R21: ENCODE after a failed DECODE: BUSY, `OP` ENCODE, `CAUSE` 0. -/
theorem test_step_cmd_encode :
    after (fun t => (t.status, t.enc.dst, t.enc.olen))
      (step { idle [0x41#8] with status := 0x27#8, host := [.writeReg .cmd 0] }) = some (0x01#8, 0, 0) := by decide

/-- E26: `IN_LEN > IN_CAP`: `STATUS = 63`. -/
theorem test_step_cmd_encode_too_long :
    after (fun t => (t.status, t.errSrc)) (step { idle [] with inLen := 9, host := [.writeReg .cmd 0] }) =
      some (0x63#8, 0) := by decide

/-- R21: DECODE after ENCODE has completed: BUSY, `OP` DECODE. -/
theorem test_step_cmd_decode :
    after (fun t => (t.status, t.dec.src, t.dec.dst))
      (step { idle [0x00#8] with status := 0x02#8, host := [.writeReg .cmd 1] }) = some (0x05#8, 0, 0) := by decide

/-- V7: the step after DECODE of an empty input raises MISSING_TERMINATOR: `STATUS = 17`. -/
theorem test_step_decode_empty :
    after (fun t => (t.status, t.errSrc)) (step (decodingAt [] 0 [])) = some (0x17#8, 0) := by decide

/-! ## The Match Finder and the Encoder -/

/-- F6: a tie goes to the earliest candidate; `abcXabcYabcZ`, at 8, gives (3, 0). -/
theorem test_find_tie :
    (fun f : Finder => (f.bestLen, f.bestSrc)) (findMatch { idle
      [0x61#8, 0x62#8, 0x63#8, 0x58#8, 0x61#8, 0x62#8, 0x63#8, 0x59#8, 0x61#8, 0x62#8, 0x63#8, 0x5A#8] with
      enc := { dst := 8, isOpen := false, runLen := 0, hdr := none, olen := 0 } }).fnd = (3, some 0) := by decide

/-- F9: self-overlap; `ababab`, at 2, gives (3, 0). -/
theorem test_find_overlap :
    (fun f : Finder => (f.bestLen, f.bestSrc)) (findMatch { idle [0x61#8, 0x62#8, 0x61#8, 0x62#8, 0x61#8, 0x62#8] with
      enc := { dst := 2, isOpen := false, runLen := 0, hdr := none, olen := 0 } }).fnd = (3, some 0) := by decide

/-- E6: `41` five times, at 1 with a run open: 3 is below 4, so a literal. -/
theorem test_encoder_rejects_three :
    after (fun t => (t.enc.dst, t.enc.runLen, readCell t.outMem 2))
      (step (encodingAt [0x41#8, 0x41#8, 0x41#8, 0x41#8, 0x41#8] 1 [0x00#8, 0x41#8] (some 0) 1)) =
      some (2, 2, some 0x41#8) := by decide

/-- E7: `41` six times, at 1 with a run open: `MATCH 4, 1`, and the run's header is patched to 01. -/
theorem test_encoder_accepts_four :
    after (fun t => (t.enc.dst, t.enc.isOpen, t.outMem.map Prod.snd))
      (step (encodingAt [0x41#8, 0x41#8, 0x41#8, 0x41#8, 0x41#8, 0x41#8] 1 [0x00#8, 0x41#8] (some 0) 1)) =
      some (5, false, [0x01#8, 0x41#8, 0x82#8, 0xFF#8]) := by decide

/-- E2: the end of ENCODE of `41` patches the header to 01 and appends `00`; `OUT_LEN = 3`. -/
theorem test_encoder_finishes :
    after (fun t => (t.status, t.outLen, t.outMem.map Prod.snd))
      (step (encodingAt [0x41#8] 1 [0x00#8, 0x41#8] (some 0) 1)) =
      some (0x02#8, 3, [0x01#8, 0x41#8, 0x00#8]) := by decide

/-! ## Witnesses: states and operands that meet the hypotheses of each statement -/

theorem witness_NothingHappensUntilHostActs :
    (State.reset.host = [] ∧ statusState State.reset.status ≠ .busy) ∧
    (let s := { idle [0x41#8] with status := 0x27#8 }; s.host = [] ∧ statusState s.status = .error) := by decide

/-- One header for each clause, at both ends of its range, with its own bytes just there or just missing. -/
theorem witness_HeaderByteSelectsToken :
    ((0x01#8 : Byte) ≠ 0x00#8 ∧ (0x01#8 : Byte).getLsbD 7 = false ∧
      ((0x01#8 : Byte).extractLsb' 0 7).toNat ≤ [0x41#8].length) ∧
    ((0x7F#8 : Byte) ≠ 0x00#8 ∧ (0x7F#8 : Byte).getLsbD 7 = false ∧
      [0x41#8].length < ((0x7F#8 : Byte).extractLsb' 0 7).toNat) ∧
    (0x80#8 : Byte).getLsbD 7 = true ∧ (0xFF#8 : Byte).getLsbD 7 = true := by decide

theorem witness_TokenLengthFollowsFromHeader :
    decodeToken [0x00#8] = .instr .tokEnd [] ∧ decodeToken [0x01#8, 0x41#8] = .instr (.tokLit [0x41#8]) [] ∧
    decodeToken [0xFF#8, 0x00#8] = .instr (.tokMatch 0x7F#7 0x00#8) [] := by decide

theorem witness_CommandValuesDecode : (0x02#8 : Byte) ≤ 0x02#8 ∧ (0x02#8 : Byte) ≤ 0xFF#8 := by decide

theorem witness_DecodeOfEncodeIsIdentity :
    (Instr.tokLit [0x41#8]).wellFormed = true ∧ (Instr.tokLit [0x41#8]).isToken = true ∧
    Instr.cmdEncode.wellFormed = true ∧ Instr.cmdEncode.isToken = false := by decide

theorem witness_EncodeOfDecodeIsIdentity :
    decodeToken [0x80#8, 0xFF#8, 0x00#8] = .instr (.tokMatch 0x00#7 0xFF#8) [0x00#8] ∧
    decodeCommand 0x01#8 = .instr .cmdDecode [] := by decide

theorem witness_DistanceByteLeadsBackToSource :
    (299 < 300 ∧ 300 ≤ 299 + 256) ∧ (0 < 256 ∧ 256 ≤ 0 + 256) := by decide

set_option maxRecDepth 4000 in
theorem witness_StepRunsDecodedToken :
    let s := decodingAt [0x02#8, 0x41#8, 0x42#8, 0x00#8] 0 []
    s.host = [] ∧ s.decoding = true ∧
    decodeToken (fetchBytes s) = .instr (.tokLit [0x41#8, 0x42#8]) [0x00#8] := by decide

/-- A state for each clause: past the input, at END, at a LIT whose payload ends at the last byte and one whose payload
is one byte short, at a MATCH with and without its distance byte. -/
theorem witness_DecoderLoopInterpretsHeader :
    (let s := decodingAt [0x01#8, 0x41#8] 2 [0x41#8];
      s.host = [] ∧ s.decoding = true ∧ s.inLen ≤ s.dec.src) ∧
    (let s := decodingAt [0x00#8] 0 []; s.dec.src < s.inLen ∧ s.inByte s.dec.src = 0x00#8) ∧
    (let s := decodingAt [0x01#8, 0x41#8] 0 [];
      s.dec.src < s.inLen ∧ s.inByte s.dec.src = 0x01#8 ∧ s.dec.src + 1 < s.inLen) ∧
    (let s := decodingAt [0x02#8, 0x41#8] 0 [];
      s.dec.src < s.inLen ∧ s.inByte s.dec.src = 0x02#8 ∧ s.inLen ≤ s.dec.src + 2) ∧
    (let s := decodingAt [0x80#8, 0xFF#8] 0 []; (s.inByte s.dec.src).getLsbD 7 = true ∧ s.dec.src + 1 < s.inLen) ∧
    (let s := decodingAt [0x80#8] 0 [];
      s.dec.src < s.inLen ∧ (s.inByte s.dec.src).getLsbD 7 = true ∧ s.inLen ≤ s.dec.src + 1) := by decide

theorem witness_StepRunsCommandWrittenToCmd :
    ({ idle [0x41#8] with host := [.writeReg .cmd 0, .pass] } : State).host =
      .writeReg .cmd (0x00#8 : Byte).toNat :: [.pass] ∧
    ({ idle [0x41#8] with host := [.writeReg .cmd 2] } : State).host = .writeReg .cmd (0x02#8 : Byte).toNat :: [] := by
  decide

theorem witness_BusyBlockMovesWhileHostWaits :
    (let s := { encodingAt [0x41#8] 0 [] none 0 with host := [.waitWhileBusy] };
      s.busy = true ∧ s.encoding = true ∧ s.host = [.waitWhileBusy] ∧ s.enc.dst < s.inLen) ∧
    (let s := { encodingAt [0x41#8] 1 [0x00#8, 0x41#8] (some 0) 1 with host := [.pass] };
      s.busy = true ∧ s.encoding = true ∧ s.host = [.pass] ∧ s.inLen ≤ s.enc.dst) := by decide

/-- A full memory IN, and an empty input. -/
theorem witness_EncodeStartsEncoder :
    ((idle (List.replicate 8 0x41#8)).busy = false ∧
      (idle (List.replicate 8 0x41#8)).inLen = (idle (List.replicate 8 0x41#8)).params.inCap) ∧
    ((idle []).busy = false ∧ (idle []).inLen ≤ (idle []).params.inCap) := by decide

theorem witness_DecodeStartsDecoder :
    (idle (List.replicate 8 0x41#8)).busy = false ∧
    (idle (List.replicate 8 0x41#8)).inLen ≤ (idle (List.replicate 8 0x41#8)).params.inCap := by decide

theorem witness_CommandFailsOnInputTooLong :
    let s := { idle [] with inLen := 9 }
    s.busy = false ∧ s.params.inCap < s.inLen := by decide

theorem witness_CommandsRefusedWhileBusy :
    (encodingAt [0x41#8] 0 [] none 0).busy = true ∧ (decodingAt [0x00#8] 0 []).busy = true := by decide

/-- The payload ends at the last input byte, and OUT is then full. -/
theorem witness_LitCopiesPayload :
    let s := decodingAt [0x02#8, 0x41#8, 0x42#8] 0 (List.replicate 6 0x43#8)
    s.dec.src + [0x41#8, 0x42#8].length < s.inLen ∧
    s.dec.dst + [0x41#8, 0x42#8].length ≤ s.params.outCap := by decide

theorem witness_LitErrorsInOrder :
    (let s := decodingAt [0x02#8, 0x41#8] 0 []; s.inLen ≤ s.dec.src + [0x41#8, 0x42#8].length) ∧
    (let s := decodingAt [0x02#8, 0x41#8, 0x42#8] 0 (List.replicate 7 0x43#8);
      s.dec.src + [0x41#8, 0x42#8].length < s.inLen ∧ s.params.outCap < s.dec.dst + [0x41#8, 0x42#8].length) := by
  decide

/-- `MATCH 5, 2` at `D.dst = 2`, which reads from the first byte. -/
theorem witness_MatchRepeatsEarlierOutput :
    let s := decodingAt [0x83#8, 0xFE#8] 0 [0x41#8, 0x42#8]
    s.dec.src + 1 < s.inLen ∧ 256 ≤ s.dec.dst + (0xFE#8 : Byte).toNat ∧
    s.dec.dst + ((0x03#7 : BitVec 7).toNat + 2) ≤ s.params.outCap := by decide

theorem witness_MatchErrorsInOrder :
    (let s := decodingAt [0x83#8] 0 [0x41#8, 0x42#8]; s.inLen ≤ s.dec.src + 1) ∧
    (let s := decodingAt [0x80#8, 0xFE#8] 0 [0x41#8];
      s.dec.src + 1 < s.inLen ∧ s.dec.dst + (0xFE#8 : Byte).toNat < 256) ∧
    (let s := decodingAt [0x85#8, 0xFE#8] 0 [0x41#8, 0x42#8];
      s.dec.src + 1 < s.inLen ∧ 256 ≤ s.dec.dst + (0xFE#8 : Byte).toNat ∧
      s.params.outCap < s.dec.dst + ((0x05#7 : BitVec 7).toNat + 2)) := by decide

/-- FIND with a result, and with none. -/
theorem witness_FindReturnsEarliestLongestMatch :
    (findMatch (encodingAt [0x41#8, 0x41#8, 0x41#8, 0x41#8] 1 [0x00#8, 0x41#8] (some 0) 1)).fnd.bestSrc = some 0 ∧
    (findMatch (encodingAt [0x41#8, 0x41#8] 1 [0x00#8, 0x41#8] (some 0) 1)).fnd.bestSrc = none := by decide

/-- Two states that differ in a byte of IN past the input. -/
theorem witness_FindReadsOnlyTheInput :
    let s := encodingAt [0x41#8, 0x41#8] 1 [0x00#8, 0x41#8] (some 0) 1
    let s' := s.storeIn 2 0x42#8
    s'.params = s.params ∧ s'.inLen = s.inLen ∧ s'.enc.dst = s.enc.dst ∧ s'.fnd = s.fnd ∧
      ∀ a, a < s.inLen → s'.inByte a = s.inByte a := by decide

/-- Length 4 with a run open is accepted, length 3 is not. -/
theorem witness_IterationAcceptsAtThreshold :
    (let s := encodingAt (List.replicate 6 0x41#8) 1 [0x00#8, 0x41#8] (some 0) 1;
      (findMatch s).fnd.bestSrc = some 0 ∧ s.params.acceptMinOpen ≤ (findMatch s).fnd.bestLen) ∧
    (let s := encodingAt (List.replicate 5 0x41#8) 1 [0x00#8, 0x41#8] (some 0) 1;
      (findMatch s).fnd.bestLen < s.params.acceptMinOpen) := by decide

theorem witness_AppendWritesOneByte :
    (let s := encodingAt [] 0 (List.replicate 8 0x41#8) none 0; s.enc.olen = s.params.outCap) ∧
    (let s := encodingAt [] 0 (List.replicate 7 0x41#8) none 0; s.enc.olen ≠ s.params.outCap) := by decide

theorem witness_FinalizePatchesReservedHeader :
    (encodingAt [0x41#8] 1 [0x00#8, 0x41#8] (some 0) 1).enc.hdr = some 0 := by decide

theorem witness_SplitClosesOnlyFullRun :
    (let s := encodingAt [] 0 [] (some 0) 127; s.enc.isOpen = true ∧ s.enc.runLen = 127) ∧
    (let s := encodingAt [] 0 [] none 127; s.enc.isOpen = false) ∧
    (let s := encodingAt [] 0 [] (some 0) 126; s.enc.runLen ≠ 127) := by decide

/-- Each clause with exactly the room it needs, and the last with one byte less. -/
theorem witness_EmitLiteralAppendsInputByte :
    (let s := encodingAt [0x41#8] 0 (List.replicate 6 0x42#8) none 0;
      s.enc.isOpen = false ∧ s.enc.olen + 2 ≤ s.params.outCap) ∧
    (let s := encodingAt [0x41#8] 0 (List.replicate 7 0x42#8) (some 0) 6;
      s.enc.isOpen = true ∧ s.enc.olen + 1 ≤ s.params.outCap) ∧
    (let s := encodingAt [0x41#8] 0 (List.replicate 8 0x42#8) (some 0) 7; s.enc.olen = s.params.outCap) ∧
    (let s := encodingAt [0x41#8] 0 (List.replicate 7 0x42#8) none 0;
      s.enc.isOpen = false ∧ s.enc.olen + 1 = s.params.outCap) := by decide

/-- The shortest and the longest match, with a run open and with none, with exactly the room and with one byte less. -/
theorem witness_EmitMatchAppendsBackReference :
    (2 ≤ 2 ∧ 2 ≤ 129 ∧ 129 ≤ 129) ∧
    (let s := encodingAt [0x41#8] 1 (List.replicate 6 0x42#8) (some 0) 5;
      0 < s.enc.dst ∧ s.enc.dst ≤ 0 + 256 ∧ s.enc.isOpen = true ∧ s.enc.hdr = some 0 ∧ 0 < s.enc.olen ∧
        s.enc.olen + 2 ≤ s.params.outCap) ∧
    (let s := encodingAt [0x41#8] 1 (List.replicate 7 0x42#8) none 0;
      s.enc.isOpen = false ∧ s.enc.hdr = none ∧ s.enc.olen + 1 = s.params.outCap) := by decide

theorem witness_FinishAppendsTerminator :
    (let s := encodingAt [0x41#8] 1 (List.replicate 7 0x42#8) (some 0) 6;
      s.enc.isOpen = true ∧ s.enc.hdr = some 0 ∧ 0 < s.enc.olen ∧ s.enc.olen < s.params.outCap) ∧
    (let s := encodingAt [] 0 [] none 0; s.enc.isOpen = false ∧ s.enc.hdr = none ∧ s.enc.olen < s.params.outCap) ∧
    (let s := encodingAt [0x41#8] 1 (List.replicate 8 0x42#8) (some 0) 7; s.enc.olen = s.params.outCap) := by decide

/-! ## Witnesses of the invariant -/

theorem small_wf : smallParams.wf := by decide

theorem idle_widths (bytes : List Byte) (h : bytes.length ≤ 8) : Widths (idle bytes) := by
  have : bytes.length < 16 := by omega
  constructor <;> first | exact this | exact (by decide : (0 : Nat) < 2 ^ 4) | exact (by decide : (0 : Nat) < 2 ^ 8) |
    exact (by decide : (0 : Nat) < 2 ^ 7) | exact (fun _ h => nomatch h) | exact (by decide : -(2 ^ 4 : Int) ≤ 0) |
    exact (by decide : (0 : Int) < 2 ^ 4)

theorem written_iff (out : List Byte) (a : Nat) : (readCell (writeCells [] 0 out) a).isSome ↔ a < out.length := by
  rw [readCell_writeCells]
  split <;> simp_all [readCell]

theorem small_memories {s : State} (bytes out : List Byte) (hi : s.inMem = writeCells [] 0 bytes)
    (ho : s.outMem = writeCells [] 0 out) (hib : bytes.length ≤ s.params.inCap)
    (hob : out.length ≤ s.params.outCap) (hie : s.inEpoch < s.fresh) (hoe : s.outEpoch < s.fresh) :
    MemoriesOk s := by
  have bound : ∀ (cap a : Nat) (m : Memory) (l : List Byte), a + l.length ≤ cap → (∀ c ∈ m, c.1 < cap) →
      ∀ c ∈ writeCells m a l, c.1 < cap := by
    intro cap a m l
    induction l generalizing a m with
    | nil => intro _ hm; exact hm
    | cons v l ih =>
      intro hl hm
      simp only [List.length_cons] at hl
      exact ih (a + 1) _ (by omega) (writeCell_bound v (by omega) hm)
  refine ⟨hi ▸ writeCells_wf 0 _ nil_wf, ho ▸ writeCells_wf 0 _ nil_wf, ?_, ?_, hie, hoe⟩
  · rw [hi]; exact bound _ _ _ _ (by omega) (by simp)
  · rw [ho]; exact bound _ _ _ _ (by omega) (by simp)

/-- A state in which no operation runs meets the invariant. -/
theorem idle_inv (bytes : List Byte) (h : bytes.length ≤ 8) : Inv (idle bytes) :=
  ⟨small_wf, (by decide : StatusOk 0x00#8), idle_widths bytes h,
    small_memories bytes [] rfl rfl h (Nat.zero_le _) Nat.zero_lt_one Nat.zero_lt_one, nofun, nofun, nofun⟩

/-- A running Decoder meets the invariant. -/
theorem decoding_inv (bytes out : List Byte) (src : Nat) (h : bytes.length ≤ 8) (ho : out.length ≤ 8)
    (hs : src ≤ bytes.length) : Inv (decodingAt bytes src out) := by
  have h1 : bytes.length < 16 := by omega
  have h2 : src < 16 := by omega
  have h3 : out.length < 16 := by omega
  refine ⟨small_wf, (by decide : StatusOk 0x05#8), ?_,
    small_memories bytes out rfl rfl h ho Nat.zero_lt_one Nat.zero_lt_one,
    fun h => absurd ((encoding_iff _).1 h).2 (by decide : statusOp 0x05#8 ≠ .encode),
    fun _ => ⟨h, hs, ho, written_iff out⟩, fun h => absurd h (by decide : statusState 0x05#8 ≠ .done)⟩
  constructor <;> first | exact h1 | exact h2 | exact h3 | exact (by decide : (0 : Nat) < 2 ^ 4) |
    exact (by decide : (0 : Nat) < 2 ^ 8) |
    exact (by decide : (0 : Nat) < 2 ^ 7) | exact (fun _ h => nomatch h) | exact (by decide : -(2 ^ 4 : Int) ≤ 0) |
    exact (by decide : (0 : Int) < 2 ^ 4)

/-- A running Encoder with no run open meets the invariant. -/
theorem encoding_inv (bytes out : List Byte) (dst : Nat) (h : bytes.length ≤ 8) (ho : out.length ≤ 8)
    (hd : dst ≤ bytes.length) : Inv (encodingAt bytes dst out none 0) := by
  have h1 : bytes.length < 16 := by omega
  have h2 : dst < 16 := by omega
  have h3 : out.length < 16 := by omega
  refine ⟨small_wf, (by decide : StatusOk 0x01#8), ?_,
    small_memories bytes out rfl rfl h ho Nat.zero_lt_one Nat.zero_lt_one,
    fun _ => ⟨h, hd, ho, written_iff out, fun _ => rfl, nofun⟩,
    fun h => absurd ((decoding_iff _).1 h).2 (by decide : statusOp 0x01#8 ≠ .decode),
    fun h => absurd h (by decide : statusState 0x01#8 ≠ .done)⟩
  constructor <;> first | exact h1 | exact h2 | exact h3 | exact (by decide : (0 : Nat) < 2 ^ 4) |
    exact (by decide : (0 : Nat) < 2 ^ 8) |
    exact (by decide : (0 : Nat) < 2 ^ 7) | exact (fun _ h => nomatch h) | exact (by decide : -(2 ^ 4 : Int) ≤ 0) |
    exact (by decide : (0 : Int) < 2 ^ 4)

/-- A running Encoder with a run open meets the invariant: after the first literal of `41 41`. -/
theorem open_run_inv : Inv (encodingAt [0x41#8, 0x41#8] 1 [0x00#8, 0x41#8] (some 0) 1) := by
  refine ⟨small_wf, (by decide : StatusOk 0x01#8), ?_, small_memories [0x41#8, 0x41#8] [0x00#8, 0x41#8] rfl rfl
    (by decide) (by decide) Nat.zero_lt_one Nat.zero_lt_one,
    fun _ => ⟨by decide, by decide, by decide, written_iff _, nofun,
      fun _ => ⟨by decide, by decide, 0, rfl, rfl⟩⟩,
    fun h => absurd ((decoding_iff _).1 h).2 (by decide : statusOp 0x01#8 ≠ .decode),
    fun h => absurd h (by decide : statusState 0x01#8 ≠ .done)⟩
  constructor <;> decide

theorem witness_StepKeepsInvariant :
    (Inv (idle [0x41#8]) ∧ ∃ t, step (idle [0x41#8]) = .next t) ∧
    (Inv (decodingAt [0x00#8] 0 []) ∧ ∃ t, step (decodingAt [0x00#8] 0 []) = .next t) :=
  ⟨⟨idle_inv _ (by decide), _, rfl⟩, decoding_inv _ _ _ (by decide) (by decide) (by decide), _, rfl⟩

/-- At the first input byte, and with the input exhausted. -/
theorem witness_EncoderStepAdvancesOrEnds :
    (Inv (encodingAt [0x41#8] 0 [] none 0) ∧ (encodingAt [0x41#8] 0 [] none 0).encoding = true) ∧
    (Inv (encodingAt [] 0 [] none 0) ∧ (encodingAt [] 0 [] none 0).encoding = true) :=
  ⟨⟨encoding_inv _ _ _ (by decide) (by decide) (by decide), by decide⟩,
    encoding_inv _ _ _ (by decide) (by decide) (by decide), by decide⟩

theorem witness_DecoderStepAdvancesOrEnds :
    (decodingAt [0x01#8, 0x41#8] 0 []).decoding = true ∧
    ∃ t, blockStep (decodingAt [0x01#8, 0x41#8] 0 []) = .next t ∧ t.dec.src = 2 := ⟨by decide, _, rfl, rfl⟩

theorem witness_EveryOperationEnds :
    (Inv (encodingAt [0x41#8] 0 [] none 0) ∧ (encodingAt [0x41#8] 0 [] none 0).busy = true) ∧
    (Inv (decodingAt [] 0 []) ∧ (decodingAt [] 0 []).busy = true) :=
  ⟨⟨encoding_inv _ _ _ (by decide) (by decide) (by decide), by decide⟩,
    decoding_inv _ _ _ (by decide) (by decide) (by decide), by decide⟩

/-- A command, the end of an operation, and a reset. -/
theorem witness_StateMovesOnlyAsStated :
    (∃ t, step { idle [0x41#8] with host := [.writeReg .cmd 0] } = .next t ∧ statusState t.status = .busy) ∧
    (∃ t, step (decodingAt [0x00#8] 0 []) = .next t ∧ statusState t.status = .done) ∧
    (∃ t, step { decodingAt [0x00#8] 0 [] with host := [.reset] } = .next t ∧ statusState t.status = .idle) :=
  ⟨⟨_, rfl, by decide⟩, ⟨_, rfl, by decide⟩, _, rfl, by decide⟩

/-- The running operation takes an error; a command fails at once; a reset; a read while in ERROR, which keeps it. -/
theorem witness_ErrSrcChangesOnlyOnErrorOrReset :
    (∃ t, step (decodingAt [0x01#8, 0x41#8] 2 [0x41#8]) = .next t ∧ t.errSrc = 2) ∧
    (∃ t, step { idle [] with inLen := 9, errSrc := 3, host := [.writeReg .cmd 0] } = .next t ∧ t.errSrc = 0) ∧
    (∃ t, step { idle [] with status := 0x27#8, errSrc := 3, host := [.reset] } = .next t ∧ t.errSrc = 0) ∧
    (∃ t, step { idle [] with status := 0x27#8, errSrc := 3, host := [.readReg .status] } = .next t ∧ t.errSrc = 3) :=
  ⟨⟨_, rfl, rfl⟩, ⟨_, rfl, rfl⟩, ⟨_, rfl, rfl⟩, _, rfl, rfl⟩

theorem witness_ParametersAreConstant : ∃ t, step { idle [] with host := [.reset] } = .next t := ⟨_, rfl⟩

theorem witness_BlockNeverWritesInput : ∃ t, blockStep (decodingAt [0x01#8, 0x41#8] 0 []) = .next t := ⟨_, rfl⟩

/-- A command, and a reset as the first event of all. -/
theorem witness_UnspecifiedContentsAreDrawnAnew :
    (Inv (idle [0x41#8]) ∧ ∃ t, exec .cmdEncode (idle [0x41#8]) = .next t ∧ t.outEpoch = 1) ∧
    (Inv { idle [] with host := [.reset] } ∧ ∃ t, step { idle [] with host := [.reset] } = .next t ∧ t.inEpoch = 1) :=
  ⟨⟨idle_inv _ (by decide), _, rfl, rfl⟩, (idle_inv [] (by decide)).withHost _, _, rfl, rfl⟩

/-- ENCODE of `41`: two steps bring it to DONE (E2). -/
theorem encode_completes : ∃ t, Completes .cmdEncode (idle [0x41#8]) t ∧ t.output = [0x01#8, 0x41#8, 0x00#8] :=
  ⟨_, ⟨_, 2, rfl, rfl, by decide⟩, by decide⟩

/-- DECODE of `01 41 00`: two steps bring it to DONE. -/
theorem decode_completes : ∃ t, Completes .cmdDecode (idle [0x01#8, 0x41#8, 0x00#8]) t ∧ t.output = [0x41#8] :=
  ⟨_, ⟨_, 2, rfl, rfl, by decide⟩, by decide⟩

theorem witness_ResultIndependentOfEarlierState :
    (∃ u t, exec .cmdEncode (idle [0x41#8]) = .next u ∧ runBlock 2 u = .next t) ∧
    (∃ u t, exec .cmdDecode (idle [0x00#8]) = .next u ∧ runBlock 1 u = .next t) :=
  ⟨⟨_, _, rfl, rfl⟩, _, _, rfl, rfl⟩

theorem witness_DecodeOfEncodeYieldsInput :
    ∃ s t s', Inv s ∧ s.busy = false ∧ Completes .cmdEncode s t ∧ Inv s' ∧ s'.busy = false ∧
      s'.input = t.output ∧ t.outLen ≤ s'.params.inCap ∧ s.inLen ≤ s'.params.outCap :=
  ⟨idle [0x41#8], _, idle [0x01#8, 0x41#8, 0x00#8], idle_inv _ (by decide), by decide, ⟨_, 2, rfl, rfl, by decide⟩,
    idle_inv _ (by decide), by decide, by decide, by decide, by decide⟩

theorem witness_EncoderOutputIsStream : ∃ s t, Inv s ∧ s.busy = false ∧ Completes .cmdEncode s t :=
  ⟨_, _, idle_inv [0x41#8] (by decide), by decide, encode_completes.choose_spec.1⟩

/-- The input that needs exactly `OUT_CAP` bytes: 6, with one run and END. -/
theorem witness_EncoderOutputIsBounded :
    let s := idle (List.replicate 6 0x41#8)
    Inv s ∧ s.busy = false ∧ 3 ≤ s.params.acceptMinOpen ∧ s.inLen ≤ s.params.inCap ∧
      s.inLen + (s.inLen + 126) / 127 + 1 = s.params.outCap :=
  ⟨idle_inv _ (by decide), by decide, by decide, by decide, by decide⟩

theorem witness_DecodedLengthIsSumOfTokens : ∃ s t, Inv s ∧ s.busy = false ∧ Completes .cmdDecode s t :=
  ⟨_, _, idle_inv [0x01#8, 0x41#8, 0x00#8] (by decide), by decide, decode_completes.choose_spec.1⟩

/-! ## Witnesses for the host -/

/-- Each clause: a command and writes while BUSY, reserved bits, a read-only register. -/
theorem witness_MeaninglessHostActionsRefused :
    refusalOf (step { decodingAt [0x00#8] 0 [] with host := [.writeReg .cmd 1] }) = some .commandWhileBusy ∧
    refusalOf (step { idle [] with host := [.writeReg .cmd 2] }) = some .reservedCommandBits ∧
    refusalOf (step { idle [] with host := [.writeReg .outCapR 0] }) = some .readOnlyRegister ∧
    refusalOf (step { decodingAt [0x00#8] 0 [] with host := [.writeReg .inLen 0] }) = some .writeWhileBusy ∧
    refusalOf (step { decodingAt [0x00#8] 0 [] with host := [.writeIn 0 0x00#8] }) = some .writeWhileBusy ∧
    refusalOf (step { decodingAt [0x00#8] 0 [] with host := [.writeOut 0 0x00#8] }) = some .writeWhileBusy ∧
    refusalOf (step { decodingAt [0x00#8] 0 [] with host := [.readOut 0] }) = some .readOutWhileBusy := by decide

theorem witness_RegistersReadAsStated :
    let s := { idle [0x41#8] with host := [.readReg .inLen] }
    s.busy = false ∧ s.host = .readReg .inLen :: [] := by decide

theorem witness_OnlyStatusReadsAsItIsWhileBusy :
    (let s := { decodingAt [0x00#8] 0 [] with host := [.readReg .status] };
      s.busy = true ∧ s.host = .readReg .status :: []) ∧
    (let s := { decodingAt [0x00#8] 0 [] with host := [.readReg .cmd] };
      s.busy = true ∧ s.host = .readReg .cmd :: []) := by decide

/-- The last byte of each memory, the widest `IN_LEN`, and a read of IN while BUSY. -/
theorem witness_HostAccessesTakeEffect :
    (let s := { idle [] with host := [.writeReg .inLen 15] }; s.busy = false ∧ 15 < 2 ^ s.params.cursorBits) ∧
    (let s := { idle [] with host := [.writeIn 7 0x41#8] }; s.busy = false ∧ 7 < s.params.inCap) ∧
    (let s := { idle [] with host := [.writeOut 7 0x41#8] }; s.busy = false ∧ 7 < s.params.outCap) ∧
    (let s := { idle [] with host := [.readOut 7] }; s.busy = false ∧ 7 < s.params.outCap) ∧
    (let s := { idle [] with host := [.readIn 7] }; s.busy = false ∧ 7 < s.params.inCap) ∧
    (let s := { decodingAt [0x00#8] 0 [] with host := [.readIn 7] }; s.busy = true ∧ 7 < s.params.inCap) := by decide

theorem witness_HostResetReinitialises :
    ({ encodingAt [0x41#8] 0 [] none 0 with host := [.reset] } : State).host = .reset :: [] := by decide

end Sys2Proof.Tests
end

/-! SUPPORT. What an action of the host and a step can do, said once (inversion lemmas), and from them that no step changes
a parameter and that every step keeps the invariant. -/

namespace Sys2Proof.Machine

/-! ## What a step can be -/

/-- What an action of the host can lead to from `s`: one case for each kind of action that gives a next state
(10_state.md R20 to R27, 60_exceptions.md R187, 70_reset_and_hazards.md R201). -/
inductive HostEffect (s : State) : HostAction → State → Prop
  | pass {t : State} (hstep : blockStep s = .next t) : HostEffect s .pass t
  | encode {v : Nat} {t : State} (hbusy : s.busy = false) (hexec : execEncode s = .next t) :
      HostEffect s (.writeReg .cmd v) t
  | decode {v : Nat} {t : State} (hbusy : s.busy = false) (hexec : execDecode s = .next t) :
      HostEffect s (.writeReg .cmd v) t
  | writeInLen {v : Nat} (hbusy : s.busy = false) (hfits : v < 2 ^ s.params.cursorBits) :
      HostEffect s (.writeReg .inLen v) { s with inLen := v }
  | writeIn {a : Nat} {v : Byte} (hbusy : s.busy = false) (hbound : a < s.params.inCap) :
      HostEffect s (.writeIn a v) (s.storeIn a v)
  | writeOut {a : Nat} {v : Byte} (hbusy : s.busy = false) (hbound : a < s.params.outCap) :
      HostEffect s (.writeOut a v) (s.storeOut a v)
  | read {a : HostAction} {data : Option Nat} {n : Nat} (hfresh : s.fresh ≤ n) :
      HostEffect s a { s with readData := data, fresh := n }
  | reset : HostEffect s .reset (hostReset s)

/-- A command is refused while BUSY. -/
theorem execEncode_not_busy {s t : State} (h : execEncode s = .next t) : s.busy = false := by
  unfold execEncode at h
  split at h
  · cases h
  · exact Bool.eq_false_of_not_eq_true ‹_›

theorem execDecode_not_busy {s t : State} (h : execDecode s = .next t) : s.busy = false := by
  unfold execDecode at h
  split at h
  · cases h
  · exact Bool.eq_false_of_not_eq_true ‹_›

theorem decodeCommand_instr {v : Byte} {i : Instr} {rest : List Byte} (h : decodeCommand v = .instr i rest) :
    i = .cmdEncode ∨ i = .cmdDecode := by
  unfold decodeCommand at h
  split at h
  · cases h; exact .inl rfl
  split at h
  · cases h; exact .inr rfl
  · cases h

theorem hostCommand_effect {v : Nat} {s t : State} (h : hostCommand v s = .next t) :
    HostEffect s (.writeReg .cmd v) t := by
  unfold hostCommand at h
  split at h
  · split at h
    · rcases decodeCommand_instr ‹_› with rfl | rfl
      · exact .encode (execEncode_not_busy h) h
      · exact .decode (execDecode_not_busy h) h
    · cases h
  · cases h

theorem hostWriteReg_effect {r : HostReg} {v : Nat} {s t : State} (h : hostWriteReg r v s = .next t) :
    HostEffect s (.writeReg r v) t := by
  cases r with
  | cmd => exact hostCommand_effect h
  | inLen =>
    simp only [hostWriteReg, hostWriteInLen] at h
    split at h
    · cases h
    split at h
    · cases h; exact .writeInLen (Bool.eq_false_of_not_eq_true ‹_›) ‹_›
    · cases h
  | status | outLen | errSrc | inCapR | outCapR => cases h

theorem hostReadReg_effect (a : HostAction) (r : HostReg) (s : State) : HostEffect s a (hostReadReg r s) := by
  unfold hostReadReg
  split
  · exact .read (Nat.le_succ _)
  · exact .read (Nat.le_refl _)

/-- Everything an action of the host can do. -/
theorem hostAct_effect {a : HostAction} {s t : State} (h : hostAct a s = .next t) : HostEffect s a t := by
  cases a with
  | writeReg r v => exact hostWriteReg_effect h
  | readReg r => cases h; exact hostReadReg_effect _ r s
  | writeIn a v =>
    simp only [hostAct, hostWriteIn] at h
    split at h
    · cases h
    split at h
    · cases h; exact .writeIn (Bool.eq_false_of_not_eq_true ‹_›) ‹_›
    · cases h
  | readIn a =>
    simp only [hostAct, hostReadIn] at h
    split at h
    · cases h; exact .read (Nat.le_refl _)
    · cases h
  | writeOut a v =>
    simp only [hostAct, hostWriteOut] at h
    split at h
    · cases h
    split at h
    · cases h; exact .writeOut (Bool.eq_false_of_not_eq_true ‹_›) ‹_›
    · cases h
  | readOut a =>
    simp only [hostAct, hostReadOut] at h
    split at h
    · cases h
    split at h
    · cases h; exact .read (Nat.le_refl _)
    · cases h
  | pass => exact .pass h
  | waitWhileBusy => cases h; exact hostReadReg_effect _ .status s
  | reset => cases h; exact .reset

/-- A step is one of the block, or takes the host's oldest pending action. -/
theorem step_cases {s t : State} (h : step s = .next t) :
    blockStep s = .next t ∨ ∃ a rest, s.host = a :: rest ∧ HostEffect { s with host := rest } a t := by
  unfold step machineStep at h
  split at h
  · exact .inl h
  · rename_i a rest hhost
    split at h
    · exact .inl h
    · exact .inr ⟨a, rest, hhost, hostAct_effect h⟩

/-! ## The parameters (00_scope.md R7) -/

theorem execEncode_params {s t : State} (h : execEncode s = .next t) : t.params = s.params := by
  unfold execEncode at h
  split at h
  · cases h
  simp only at h
  split at h <;> cases h <;> rfl

theorem execDecode_params {s t : State} (h : execDecode s = .next t) : t.params = s.params := by
  unfold execDecode at h
  split at h
  · cases h
  simp only at h
  split at h <;> cases h <;> rfl

theorem encoderStep_params {s t : State} (h : encoderStep s = .next t) : t.params = s.params := by
  rcases encoderStep_cases s with ⟨u, e, hf⟩ | ⟨u, len, e, hf⟩ | ⟨u, pos, e, hf⟩ | ⟨r, e⟩ <;>
    rw [e] at h <;> cases h <;> exact hf.params

theorem DecoderFrame.params {s t : State} (h : DecoderFrame s t) : t.params = s.params := by rw [h]

theorem decoderStep_params {s t : State} (h : decoderStep s = .next t) : t.params = s.params := by
  rcases decoderStep_cases s with ⟨c, -, e⟩ | e | ⟨p, e, -⟩ | ⟨m, d, e, -⟩ <;> rw [e] at h <;> cases h
  · rfl
  · rfl
  · exact (literalCopied_frame p s).params
  · exact (matchCopied_frame m d s).params

theorem blockStep_params {s t : State} (h : blockStep s = .next t) : t.params = s.params := by
  unfold blockStep at h
  split at h
  · exact encoderStep_params h
  split at h
  · exact decoderStep_params h
  · cases h; rfl

theorem HostEffect.params {s t : State} {a : HostAction} (h : HostEffect s a t) : t.params = s.params := by
  cases h with
  | pass hstep => exact blockStep_params hstep
  | encode _ hexec => exact execEncode_params hexec
  | decode _ hexec => exact execDecode_params hexec
  | writeInLen | writeIn | writeOut | read | reset => rfl

/-- Settles O41: a step is one of the block or an action of the host, and neither has a case that writes `params`. -/
theorem parametersAreConstant : Obligations.ParametersAreConstant := by
  unfold Obligations.ParametersAreConstant
  intro s t h
  rcases step_cases h with hblock | ⟨a, rest, -, heffect⟩
  · exact blockStep_params hblock
  · exact heffect.params

/-! ## An iteration of the Encoder keeps the invariant (41_encoder.md R121) -/

/-- What an iteration of a running Encoder leads to: it advances `E.dst` and `OUT` does not shrink, or it raises
OUTPUT_OVERFLOW at `E.dst` (R182). It does not read ⊥. -/
def AdvancesOrOverflows (s : State) (x : Flow) : Prop :=
  (∃ t, x = .go t ∧ Encoding t ∧ s.enc.dst < t.enc.dst ∧ s.enc.olen ≤ t.enc.olen) ∨
  ∃ u, x = .raised (takeError .outputOverflow s.enc.dst u) ∧ EncoderFrame s u

/-- An action before the one that advances `E.dst`. -/
theorem AdvancesOrOverflows.mono {s t : State} {x : Flow} (hf : EncoderFrame s t) (hdst : t.enc.dst = s.enc.dst)
    (holen : s.enc.olen ≤ t.enc.olen) (h : AdvancesOrOverflows t x) : AdvancesOrOverflows s x := by
  rcases h with ⟨u, e, hu, hd, ho⟩ | ⟨u, e, hu⟩
  · exact .inl ⟨u, e, hu, by omega, by omega⟩
  · exact .inr ⟨u, by rw [e, hdst], hf.trans hu⟩

theorem emitMatch_advances {s : State} {len : Nat} (src : Nat) (h : Encoding s) (hpos : 0 < len)
    (hlen : s.enc.dst + len ≤ s.inLen) : AdvancesOrOverflows s (emitMatch len src s) := by
  by_cases hfull : s.enc.olen = s.params.outCap ∨ s.enc.olen + 1 = s.params.outCap
  · exact .inr (emitMatch_raised len src h.ok.hdr hfull)
  · obtain ⟨h1, h2⟩ := not_or.1 hfull
    refine .inl ⟨_, emitMatch_go len src h.ok.hdr h1 h2, matchEmitted_encoding len src h hlen h1 h2, ?_, ?_⟩
    · simpa [matchEmitted] using hpos
    · simp [matchEmitted]

theorem opened_olen (s : State) : s.enc.olen ≤ (opened s).enc.olen := by
  unfold opened
  split
  · exact Nat.le_refl _
  · exact Nat.le_succ _

theorem emitLiteral_advances {s : State} (h : Encoding s) (hn : s.enc.dst < s.inLen)
    (hroom : s.enc.isOpen = true → s.enc.runLen ≠ Config.litMax) : AdvancesOrOverflows s (emitLiteral s) := by
  by_cases hfull : (s.enc.isOpen = false ∧ s.enc.olen = s.params.outCap) ∨ (opened s).enc.olen = s.params.outCap
  · exact .inr (emitLiteral_raised hfull)
  · obtain ⟨h1, h2⟩ := not_or.1 hfull
    have h1' : s.enc.isOpen = false → s.enc.olen ≠ s.params.outCap := fun ho hc => h1 ⟨ho, hc⟩
    refine .inl ⟨_, emitLiteral_go h1' h2, literalEmitted_encoding h hn hroom h1' h2, ?_, ?_⟩
    · simp [literalEmitted]
    · simpa [literalEmitted] using Nat.le_succ_of_le (opened_olen s)

@[simp] theorem splitRun_dst (s : State) : (splitRun s).enc.dst = s.enc.dst := by
  unfold splitRun
  split
  · exact closed_dst s
  · rfl

@[simp] theorem splitRun_olen (s : State) : (splitRun s).enc.olen = s.enc.olen := by
  unfold splitRun
  split
  · exact closed_olen s
  · rfl

theorem splitThenEmitLiteral_advances {s : State} (h : Encoding s) (hn : s.enc.dst < s.inLen) :
    AdvancesOrOverflows s ((splitIfFull s).andThen emitLiteral) := by
  have hf := splitRun_frame s
  rw [splitIfFull_go h.ok.hdr, Flow.go_andThen]
  exact (emitLiteral_advances (splitRun_encoding h) (by rwa [hf.inLen, splitRun_dst]) (splitRun_room s)).mono hf
    (splitRun_dst s) (splitRun_olen s).ge

/-- Every acceptance threshold is at least 2 (41_encoder.md R122). -/
theorem two_le_of_accepts {p : Config.Params} {isOpen : Bool} {len : Nat} (hp : p.wf)
    (h : accepts p isOpen len = true) : 2 ≤ len := by
  obtain ⟨-, -, hopen, hclosed, -⟩ := hp
  have hthr : acceptThreshold p isOpen ≤ len := by simpa [accepts] using h
  cases isOpen with
  | true => exact Nat.le_trans hopen hthr
  | false => exact Nat.le_trans hclosed hthr

theorem encodeIteration_advances {s : State} (h : Encoding s) (hn : s.enc.dst < s.inLen) :
    AdvancesOrOverflows s (encodeIteration s) := by
  have hfind := findMatch_encoding h
  have hf : EncoderFrame s (findMatch s) := ⟨rfl, Nat.le_refl _⟩
  suffices AdvancesOrOverflows (findMatch s) (encodeIteration s) from
    this.mono hf (by rw [findMatch_enc]) (by rw [findMatch_enc])
  unfold encodeIteration
  simp only
  split
  · have hlen := two_le_of_accepts hfind.inv.params ‹_›
    have hlt := findMatch_bestLen_lt s
    obtain ⟨src, hsrc⟩ := findMatch_source hlen
    rw [hsrc]
    exact emitMatch_advances src hfind (by omega) (by rw [findMatch_enc, findMatch_inLen]; omega)
  · exact splitThenEmitLiteral_advances hfind (by simpa using hn)

/-! ## Finish keeps the invariant (41_encoder.md R127) -/

theorem finishEncode_completes {s : State} (h : Encoding s) :
    (∃ t, finishEncode s = .go t ∧ Inv t ∧ statusState t.status = .done) ∨
    ∃ u, finishEncode s = .raised (takeError .outputOverflow s.enc.dst u) ∧ EncoderFrame s u := by
  by_cases hfull : s.enc.olen = s.params.outCap
  · exact .inr (finishEncode_raised h.ok.hdr hfull)
  have hroom : s.enc.olen < s.params.outCap := Nat.lt_of_le_of_ne h.ok.olen hfull
  have hf := closed_frame s
  have hc := (closed_encoding h).inv
  have hmem := closed_memory h
  obtain ⟨-, -, -, -, -, hcap⟩ := h.inv.params
  refine .inl ⟨_, finishEncode_go h.ok.hdr hfull, completeOperation_inv ?_ ?_ ?_ ?_ ?_ fun a ha => ?_, by simp⟩
  · exact { hc.base with }
  · exact { hc.widths with encOlen := by simp only [setEnc_enc, setEnc_params, storeOut_params, hf.params]; omega }
  · exact { hc.memories with
      outWf := writeCell_wf _ _ hmem.1
      outBound := by simpa [hf.params] using writeCell_bound _ hroom hmem.2 }
  · simpa [hf.status] using ((encoding_iff s).1 h.runs).1
  · simpa [hf.params] using hroom
  · simp only [setEnc_outMem, storeOut_outMem, readCell_writeCell]
    split
    · rfl
    · exact (closed_written h.ok a).2 (by omega)

/-- A step of a running Encoder: an iteration while input is left, then Finish; OUTPUT_OVERFLOW is its one error. -/
theorem encoderStep_outcome {s : State} (h : Encoding s) :
    (∃ t, encoderStep s = .next t ∧ Encoding t ∧ s.enc.dst < t.enc.dst ∧ s.enc.olen ≤ t.enc.olen) ∨
    (∃ t, encoderStep s = .next t ∧ Inv t ∧ statusState t.status = .done ∧ s.enc.dst = s.inLen) ∨
    ∃ u, encoderStep s = .next (takeError .outputOverflow s.enc.dst u) ∧ EncoderFrame s u := by
  unfold encoderStep
  split
  · rcases encodeIteration_advances h ‹_› with ⟨t, e, ht⟩ | ⟨u, e, hu⟩
    · exact .inl ⟨t, by rw [e, Flow.go_toOutcome], ht⟩
    · exact .inr (.inr ⟨u, by rw [e, Flow.raised_toOutcome], hu⟩)
  · have hend : s.enc.dst = s.inLen := Nat.le_antisymm h.ok.dst (Nat.le_of_not_lt ‹_›)
    rcases finishEncode_completes h with ⟨t, e, ht, hdone⟩ | ⟨u, e, hu⟩
    · exact .inr (.inl ⟨t, by rw [e, Flow.go_toOutcome], ht, hdone, hend⟩)
    · exact .inr (.inr ⟨u, by rw [e, Flow.raised_toOutcome], hu⟩)

/-! ## Every step of the block keeps the invariant -/

theorem encoderStep_inv {s : State} (h : Encoding s) : ∃ t, encoderStep s = .next t ∧ Inv t := by
  rcases encoderStep_outcome h with ⟨t, e, ht, -⟩ | ⟨t, e, ht, -⟩ | ⟨u, e, hu⟩
  · exact ⟨t, e, ht.inv⟩
  · exact ⟨t, e, ht⟩
  · exact ⟨_, e, encoder_error_inv h hu⟩

theorem decoderStep_inv {s : State} (h : Inv s) (hd : s.decoding = true) :
    ∃ t, decoderStep s = .next t ∧ Inv t := by
  unfold decoderStep
  split
  · rcases decodeToken_token ‹_› with rfl | ⟨payload, rfl, -⟩ | ⟨m, d, rfl⟩
    · exact ⟨_, rfl, execEnd_inv h hd⟩
    · exact execLit_inv payload h hd
    · exact execMatch_inv m d h hd
  · exact ⟨_, rfl, takeError_inv h.base (decodeToken_rejected ‹_›) h.widths.decSrc⟩

/-- From a state that meets the invariant a step of the block neither faults nor is refused. -/
theorem blockStep_inv {s : State} (h : Inv s) : ∃ t, blockStep s = .next t ∧ Inv t := by
  unfold blockStep
  split
  · exact encoderStep_inv ⟨h, ‹_›⟩
  split
  · exact decoderStep_inv h ‹_›
  · exact ⟨s, rfl, h⟩

/-! ## Every action of the host keeps the invariant -/

/-- What the host has read is no part of the invariant, and the next event may be a later one. -/
theorem Inv.withRead {s : State} (h : Inv s) (data : Option Nat) {n : Nat} (hn : s.fresh ≤ n) :
    Inv { s with readData := data, fresh := n } where
  params := h.params
  status := h.status
  widths := { h.widths with }
  memories := { h.memories with
    inEpoch := Nat.lt_of_lt_of_le h.memories.inEpoch hn
    outEpoch := Nat.lt_of_lt_of_le h.memories.outEpoch hn }
  encoder := fun he => { h.encoder he with }
  decoder := fun hd => { h.decoder hd with }
  output := fun ho => { h.output ho with }

/-- The part of the invariant that is about a running agent holds of a block that is not BUSY. -/
theorem Inv.of_not_busy {s : State} (hb : s.busy = false) (hp : s.params.wf) (hs : StatusOk s.status)
    (hw : Widths s) (hm : MemoriesOk s) (ho : statusState s.status = .done → OutputOk s) : Inv s where
  params := hp
  status := hs
  widths := hw
  memories := hm
  encoder := by simp [(not_busy_agents hb).1]
  decoder := by simp [(not_busy_agents hb).2]
  output := ho

theorem writeInLen_inv {s : State} {v : Nat} (h : Inv s) (hb : s.busy = false)
    (hv : v < 2 ^ s.params.cursorBits) : Inv { s with inLen := v } :=
  .of_not_busy hb h.params h.status { h.widths with inLen := hv } { h.memories with }
    fun hd => { h.output hd with }

theorem storeIn_inv {s : State} {a : Nat} (v : Byte) (h : Inv s) (hb : s.busy = false)
    (ha : a < s.params.inCap) : Inv (s.storeIn a v) :=
  .of_not_busy hb h.params h.status { h.widths with }
    { h.memories with
      inWf := writeCell_wf a v h.memories.inWf
      inBound := writeCell_bound v ha h.memories.inBound }
    fun hd => { h.output hd with }

theorem storeOut_inv {s : State} {a : Nat} (v : Byte) (h : Inv s) (hb : s.busy = false)
    (ha : a < s.params.outCap) : Inv (s.storeOut a v) := by
  refine .of_not_busy hb h.params h.status { h.widths with }
    { h.memories with
      outWf := writeCell_wf a v h.memories.outWf
      outBound := writeCell_bound v ha h.memories.outBound }
    fun hd => ⟨(h.output hd).outLen, fun b hlt => ?_⟩
  simp only [storeOut_outMem, readCell_writeCell]
  split
  · rfl
  · exact (h.output hd).written b hlt

/-- The agent registers hold free values, as after an error, so their widths are those `takeError_widths` gives. -/
theorem hostReset_widths (s : State) : Widths (hostReset s) :=
  have hpos := Nat.two_pow_pos s.params.cursorBits
  { takeError_widths (s := { s with inLen := 0 }) .none hpos hpos with outLen := hpos }

theorem hostReset_inv {s : State} (hp : s.params.wf) : Inv (hostReset s) :=
  .of_not_busy (by decide : decide (statusState 0x00#8 = .busy) = false) hp (by decide : StatusOk 0x00#8)
    (hostReset_widths s)
    ⟨nil_wf, nil_wf, nofun, nofun, Nat.lt_succ_self _, Nat.lt_succ_self _⟩
    fun hd => absurd hd (by decide : statusState 0x00#8 ≠ .done)

/-- The next state of a total outcome is the one that meets the invariant. -/
theorem inv_of_next {x : Host.Outcome State Fault Refusal} {t : State} (h : ∃ u, x = .next u ∧ Inv u)
    (e : x = .next t) : Inv t := by
  obtain ⟨u, rfl, hu⟩ := h
  cases e; exact hu

theorem HostEffect.inv {s t : State} {a : HostAction} (heffect : HostEffect s a t) (h : Inv s) : Inv t := by
  cases heffect with
  | pass hstep => exact inv_of_next (blockStep_inv h) hstep
  | encode hbusy hexec => exact inv_of_next (execEncode_inv h hbusy) hexec
  | decode hbusy hexec => exact inv_of_next (execDecode_inv h hbusy) hexec
  | writeInLen hbusy hfits => exact writeInLen_inv h hbusy hfits
  | writeIn hbusy hbound => exact storeIn_inv _ h hbusy hbound
  | writeOut hbusy hbound => exact storeOut_inv _ h hbusy hbound
  | read hfresh => exact h.withRead _ hfresh
  | reset => exact hostReset_inv h.params

/-- Settles O35: a step is one of the block or an action of the host, and each case keeps the invariant. -/
theorem stepKeepsInvariant : Obligations.StepKeepsInvariant := by
  unfold Obligations.StepKeepsInvariant
  intro s t h hstep
  rcases step_cases hstep with hblock | ⟨a, rest, -, heffect⟩
  · exact inv_of_next (blockStep_inv h) hblock
  · exact heffect.inv (h.withHost rest)

end Sys2Proof.Machine

/-! SUPPORT. The commands and the host's accesses (10_state.md R20 to R27), what a step does to `STATE` and `ERR_SRC` (R22,
R25), and that the result of an operation depends on no register, OUT byte or `OUT_LEN` from before it (R39). -/

namespace Sys2Proof.Machine

/-! ## The commands (10_state.md R21, R23) -/

/-- What starting the operation does to its agent's registers (41_encoder.md R121, 42_decoder.md R151). -/
def initAgent : Op → State → State
  | .encode, s => s.setEnc { dst := 0, isOpen := false, runLen := 0, hdr := none, olen := 0 }
  | .decode, s => s.setDec { s.dec with src := 0, dst := 0 }

@[simp] theorem initAgent_status (op : Op) (s : State) : (initAgent op s).status = s.status := by
  cases op <;> rfl

@[simp] theorem initAgent_errSrc (op : Op) (s : State) : (initAgent op s).errSrc = s.errSrc := by
  cases op <;> rfl

/-- The two commands as one function of the operation. -/
def execCommand (op : Op) (s : State) : Host.Outcome State Fault Refusal :=
  if s.busy then .refused .commandWhileBusy
  else if s.params.inCap < s.inLen then .next (takeError .inputTooLong 0 (startOperation op s))
  else .next (initAgent op (startOperation op s))

theorem exec_cmdEncode (s : State) : exec .cmdEncode s = execCommand .encode s := rfl

theorem exec_cmdDecode (s : State) : exec .cmdDecode s = execCommand .decode s := rfl

theorem execCommand_busy {s : State} (op : Op) (hbusy : s.busy = true) :
    execCommand op s = .refused .commandWhileBusy := by
  simp [execCommand, hbusy]

theorem execCommand_starts {s : State} (op : Op) (hbusy : s.busy = false) (hlen : s.inLen ≤ s.params.inCap) :
    execCommand op s = .next (initAgent op (startOperation op s)) := by
  simp [execCommand, hbusy, Nat.not_lt.2 hlen]

theorem execCommand_tooLong {s : State} (op : Op) (hbusy : s.busy = false) (hlen : s.params.inCap < s.inLen) :
    execCommand op s = .next (takeError .inputTooLong 0 (startOperation op s)) := by
  simp [execCommand, hbusy, hlen]

/-- A command that is not refused starts its operation or fails at once. -/
theorem execCommand_cases {op : Op} {s t : State} (h : execCommand op s = .next t) :
    s.busy = false ∧
      (t = initAgent op (startOperation op s) ∨ t = takeError .inputTooLong 0 (startOperation op s)) := by
  unfold execCommand at h
  split at h
  · cases h
  refine ⟨Bool.eq_false_of_not_eq_true ‹_›, ?_⟩
  split at h
  · cases h; exact .inr rfl
  · cases h; exact .inl rfl

/-- Settles O15: ENCODE is accepted, and the state it leads to is the started operation with `E.*` initialised. -/
theorem encodeStartsEncoder : Obligations.EncodeStartsEncoder := by
  unfold Obligations.EncodeStartsEncoder
  intro s hbusy hlen
  obtain ⟨hstate, hop, hcause⟩ := startOperation_fields s .encode
  exact ⟨_, execCommand_starts .encode hbusy hlen, hstate, hop, hcause, by simp, rfl, rfl⟩

/-- Settles O16: DECODE is accepted, and the state it leads to is the started operation with `D.src` and `D.dst` 0. -/
theorem decodeStartsDecoder : Obligations.DecodeStartsDecoder := by
  unfold Obligations.DecodeStartsDecoder
  intro s hbusy hlen
  obtain ⟨hstate, hop, hcause⟩ := startOperation_fields s .decode
  exact ⟨_, execCommand_starts .decode hbusy hlen, hstate, hop, hcause, by simp, rfl, rfl⟩

/-- Settles O17: either command takes INPUT_TOO_LONG from the operation it has just started. -/
theorem commandFailsOnInputTooLong : Obligations.CommandFailsOnInputTooLong := by
  unfold Obligations.CommandFailsOnInputTooLong
  intro s hbusy hlen
  have hfails (op : Op) : ∃ t, execCommand op s = .next t ∧ statusState t.status = .error ∧
      statusCause t.status = 6 ∧ statusOp t.status = op ∧ t.errSrc = 0 ∧ t.inMem = s.inMem ∧
      t.inLen = s.inLen := by
    obtain ⟨hstate, hcause, hop⟩ := takeError_fields (startOperation op s) .inputTooLong 0
    exact ⟨_, execCommand_tooLong op hbusy hlen, hstate, hcause, hop.trans (startOperation_fields s op).2.1,
      rfl, rfl, rfl⟩
  exact ⟨hfails .encode, hfails .decode⟩

/-- Settles O18: both commands test BUSY first. -/
theorem commandsRefusedWhileBusy : Obligations.CommandsRefusedWhileBusy := by
  unfold Obligations.CommandsRefusedWhileBusy
  exact fun s hbusy => ⟨execCommand_busy .encode hbusy, execCommand_busy .decode hbusy⟩

/-! ## The host's accesses (10_state.md R20 to R27) -/

/-- A step takes the host's oldest action, unless the host waits. -/
theorem step_hostAct {s : State} {a : HostAction} {rest : List HostAction} (hhost : s.host = a :: rest)
    (ha : a ≠ .waitWhileBusy) : step s = hostAct a { s with host := rest } := by
  simp [step, machineStep, hhost, hostWaits, ha]

/-- The host's pending actions are no part of `STATUS`. -/
theorem withHost_busy (s : State) (rest : List HostAction) : State.busy { s with host := rest } = s.busy := rfl

theorem hostReadReg_status (s : State) :
    hostReadReg .status s = { s with readData := some s.status.toNat } := by
  simp [hostReadReg, regValue]

theorem hostReadReg_not_busy {s : State} (r : HostReg) (hbusy : s.busy = false) :
    hostReadReg r s = { s with readData := some (regValue s r) } := by
  simp [hostReadReg, hbusy]

theorem hostReadReg_busy {s : State} {r : HostReg} (hbusy : s.busy = true) (hr : r ≠ .status) :
    hostReadReg r s =
      { s with readData := some (Config.freeNat s.fresh 0 % 2 ^ regWidth s.params r), fresh := s.fresh + 1 } := by
  simp [hostReadReg, hbusy, hr]

/-- The widths of R20: `CMD` and `STATUS` have 8 bits, the others `CURSOR_BITS`. -/
theorem regWidth_of_ne_status {r : HostReg} (p : Config.Params) (hr : r ≠ .status) :
    regWidth p r = if r = .cmd then 8 else p.cursorBits := by
  cases r with
  | status => exact absurd rfl hr
  | cmd | inLen | outLen | errSrc | inCapR | outCapR => rfl

/-- Settles O49: a register read while not BUSY gives `regValue`. -/
theorem registersReadAsStated : Obligations.RegistersReadAsStated := by
  unfold Obligations.RegistersReadAsStated
  intro s rest r hbusy hhost
  rw [step_hostAct hhost nofun, hostAct, hostReadReg_not_busy r ((withHost_busy s rest).trans hbusy)]
  cases r <;> rfl

/-- Settles O50: while BUSY a read of `STATUS` is as it is, and any other is a free value of the register's width. -/
theorem onlyStatusReadsAsItIsWhileBusy : Obligations.OnlyStatusReadsAsItIsWhileBusy := by
  unfold Obligations.OnlyStatusReadsAsItIsWhileBusy
  refine fun s rest hbusy => ⟨fun hhost => ⟨?_, (busy_iff s).1 hbusy⟩, fun r hr hhost => ?_⟩
  · rw [step_hostAct hhost nofun, hostAct, hostReadReg_status]
  · rw [step_hostAct hhost nofun, hostAct, hostReadReg_busy ((withHost_busy s rest).trans hbusy) hr,
      ← regWidth_of_ne_status s.params hr]
    exact ⟨_, Nat.mod_lt _ (Nat.two_pow_pos _), rfl⟩

theorem hostWriteInLen_not_busy {s : State} {v : Nat} (hbusy : s.busy = false) (hv : v < 2 ^ s.params.cursorBits) :
    hostWriteInLen v s = .next { s with inLen := v } := by
  simp [hostWriteInLen, hbusy, hv]

theorem hostWriteIn_not_busy {s : State} {a : Nat} (v : Byte) (hbusy : s.busy = false) (ha : a < s.params.inCap) :
    hostWriteIn a v s = .next (s.storeIn a v) := by
  simp [hostWriteIn, hbusy, ha]

theorem hostWriteOut_not_busy {s : State} {a : Nat} (v : Byte) (hbusy : s.busy = false) (ha : a < s.params.outCap) :
    hostWriteOut a v s = .next (s.storeOut a v) := by
  simp [hostWriteOut, hbusy, ha]

theorem hostReadOut_not_busy {s : State} {a : Nat} (hbusy : s.busy = false) (ha : a < s.params.outCap) :
    hostReadOut a s = .next { s with readData := some (s.outByte a).toNat } := by
  simp [hostReadOut, hbusy, ha]

theorem hostReadIn_in_range {s : State} {a : Nat} (ha : a < s.params.inCap) :
    hostReadIn a s = .next { s with readData := some (s.inByte a).toNat } := by
  simp [hostReadIn, ha]

/-- Settles O51: each access is the step, and a byte stored is read back with the others unchanged. -/
theorem hostAccessesTakeEffect : Obligations.HostAccessesTakeEffect := by
  unfold Obligations.HostAccessesTakeEffect
  intro s rest
  refine ⟨fun hbusy v hv hhost => ?_, fun hbusy a v ha hhost => ?_, fun hbusy a v ha hhost => ?_,
    fun hbusy a ha hhost => ?_, fun a ha hhost => ?_⟩
  · exact (step_hostAct hhost nofun).trans (hostWriteInLen_not_busy hbusy hv)
  · refine ⟨_, (step_hostAct hhost nofun).trans (hostWriteIn_not_busy v hbusy ha), rfl, ?_, fun b hb => ?_⟩
    · rw [inByte_storeIn, if_pos rfl]
    · rw [inByte_storeIn, if_neg hb]; rfl
  · refine ⟨_, (step_hostAct hhost nofun).trans (hostWriteOut_not_busy v hbusy ha), rfl, ?_, fun b hb => ?_⟩
    · rw [outByte_storeOut, if_pos rfl]
    · rw [outByte_storeOut, if_neg hb]; rfl
  · exact (step_hostAct hhost nofun).trans (hostReadOut_not_busy hbusy ha)
  · exact (step_hostAct hhost nofun).trans (hostReadIn_in_range ha)

/-! ## How `STATE` and `ERR_SRC` move (10_state.md R22, R25) -/

/-- What a step of the running agent does to `STATUS` and `ERR_SRC`. -/
inductive AgentMove (s t : State) : Prop
  | goesOn (hstatus : t.status = s.status) (herr : t.errSrc = s.errSrc)
  | completes (hstatus : t.status = setStatusState .done s.status) (herr : t.errSrc = s.errSrc)
  | fails {c : Cause} (hstatus : t.status = setStatusState .error (setStatusCause c s.status))

theorem EncoderFrame.errSrc {s t : State} (h : EncoderFrame s t) : t.errSrc = s.errSrc := by rw [h.eq]

theorem encoderStep_move {s t : State} (h : encoderStep s = .next t) : AgentMove s t := by
  rcases encoderStep_cases s with ⟨u, e, hf⟩ | ⟨u, len, e, hf⟩ | ⟨u, pos, e, hf⟩ | ⟨r, e⟩ <;> rw [e] at h <;> cases h
  · exact .goesOn hf.status hf.errSrc
  · exact .completes (by simp [hf.status]) hf.errSrc
  · exact .fails (by rw [takeError_status, hf.status])

theorem DecoderFrame.move {s t : State} (h : DecoderFrame s t) : AgentMove s t :=
  .goesOn (by rw [h]) (by rw [h])

theorem decoderStep_move {s t : State} (h : decoderStep s = .next t) : AgentMove s t := by
  rcases decoderStep_cases s with ⟨c, -, e⟩ | e | ⟨p, e, -⟩ | ⟨m, d, e, -⟩ <;> rw [e] at h <;> cases h
  · exact .fails rfl
  · exact .completes rfl rfl
  · exact (literalCopied_frame p s).move
  · exact (matchCopied_frame m d s).move

/-- A step of the block is a move of its agent while BUSY, and nothing otherwise. -/
theorem blockStep_move {s t : State} (h : blockStep s = .next t) : s.busy = true ∧ AgentMove s t ∨ t = s := by
  cases hbusy : s.busy with
  | false => rw [blockStep_not_busy hbusy] at h; cases h; exact .inr rfl
  | true =>
    rcases busy_cases hbusy with ⟨henc, -⟩ | ⟨-, hdec⟩
    · rw [blockStep_encoding henc] at h; exact .inl ⟨rfl, encoderStep_move h⟩
    · rw [blockStep_decoding hdec] at h; exact .inl ⟨rfl, decoderStep_move h⟩

/-- Every way a step can move `STATE`, with what `ERR_SRC` does then. -/
inductive StateMove (s t : State) : Prop
  | stays (hstate : statusState t.status = statusState s.status) (herr : t.errSrc = s.errSrc)
  | completes (hbusy : s.busy = true) (hstate : statusState t.status = .done) (herr : t.errSrc = s.errSrc)
  | fails (hbusy : s.busy = true) (hstate : statusState t.status = .error)
  | starts (hbusy : s.busy = false) (hcmd : ∃ v rest, s.host = .writeReg .cmd v :: rest)
      (hstate : statusState t.status = .busy) (herr : t.errSrc = s.errSrc)
  | failsAtOnce (hbusy : s.busy = false) (hcmd : ∃ v rest, s.host = .writeReg .cmd v :: rest)
      (hstate : statusState t.status = .error)
  | resets (hreset : ∃ rest, s.host = .reset :: rest) (hstate : statusState t.status = .idle) (herr : t.errSrc = 0)

/-- The host's pending actions do not matter for a step of the block. -/
theorem stateMove_of_blockStep {s t : State} {actions : List HostAction}
    (h : blockStep { s with host := actions } = .next t) : StateMove s t := by
  rcases blockStep_move h with ⟨hbusy, hmove⟩ | rfl
  · cases hmove with
    | goesOn hstatus herr => exact .stays (by rw [hstatus]) herr
    | completes hstatus herr => exact .completes hbusy (by rw [hstatus, statusState_setStatusState]) herr
    | fails hstatus => exact .fails hbusy (by rw [hstatus, statusState_setStatusState])
  · exact .stays rfl rfl

theorem stateMove_of_command {s t : State} {op : Op} {v : Nat} {rest : List HostAction}
    (hhost : s.host = .writeReg .cmd v :: rest) (h : execCommand op { s with host := rest } = .next t) :
    StateMove s t := by
  obtain ⟨hbusy, rfl | rfl⟩ := execCommand_cases h
  · exact .starts hbusy ⟨v, rest, hhost⟩ (by simp) (by simp)
  · exact .failsAtOnce hbusy ⟨v, rest, hhost⟩ (by simp)

theorem step_stateMove {s t : State} (h : step s = .next t) : StateMove s t := by
  rcases step_cases h with hblock | ⟨a, rest, hhost, heffect⟩
  · exact stateMove_of_blockStep hblock
  · cases heffect with
    | pass hstep => exact stateMove_of_blockStep hstep
    | encode _ hexec => exact stateMove_of_command (op := .encode) hhost hexec
    | decode _ hexec => exact stateMove_of_command (op := .decode) hhost hexec
    | writeInLen | writeIn | writeOut | read => exact .stays rfl rfl
    | reset => exact .resets ⟨rest, hhost⟩ (by decide : statusState 0x00#8 = .idle) rfl

/-- Settles O39: each move of `step_stateMove` is one of the transitions. -/
theorem stateMovesOnlyAsStated : Obligations.StateMovesOnlyAsStated := by
  unfold Obligations.StateMovesOnlyAsStated
  intro s t h
  cases step_stateMove h with
  | stays hstate => exact .inl hstate
  | completes hbusy hstate => exact .inr (.inl ⟨hbusy, .inl hstate⟩)
  | fails hbusy hstate => exact .inr (.inl ⟨hbusy, .inr hstate⟩)
  | starts hbusy hcmd hstate => exact .inr (.inr (.inl ⟨hbusy, hcmd, .inl hstate⟩))
  | failsAtOnce hbusy hcmd hstate => exact .inr (.inr (.inl ⟨hbusy, hcmd, .inr hstate⟩))
  | resets hreset hstate => exact .inr (.inr (.inr ⟨hreset, hstate⟩))

/-- Settles O40: only the moves of `step_stateMove` to ERROR and at reset leave `ERR_SRC` open. -/
theorem errSrcChangesOnlyOnErrorOrReset : Obligations.ErrSrcChangesOnlyOnErrorOrReset := by
  unfold Obligations.ErrSrcChangesOnlyOnErrorOrReset
  intro s t h
  cases step_stateMove h with
  | stays _ herr => exact .inl herr
  | completes _ _ herr => exact .inl herr
  | fails hbusy hstate => exact .inr (.inl ⟨hstate, .inl hbusy⟩)
  | starts _ _ _ herr => exact .inl herr
  | failsAtOnce _ hcmd hstate => exact .inr (.inl ⟨hstate, .inr hcmd⟩)
  | resets hreset _ herr => exact .inr (.inr ⟨hreset, herr⟩)

/-! ## The registers no result depends on (10_state.md R39) -/

/-- `s` with other values in the registers the Encoder does not read before it writes them. -/
def State.setUnreadByEncoder (f : Finder) (d : Decoder) (s : State) : State := { s with fnd := f, dec := d }

/-- `s` with other values in the registers the Decoder does not read before it writes them. -/
def State.setUnreadByDecoder (e : Encoder) (f : Finder) (off : Int) (cnt : Nat) (s : State) : State :=
  { s with enc := e, fnd := f, dec := { s.dec with off := off, cnt := cnt } }

/-- The second state differs from the first at most in registers its operation does not read before it writes them. -/
inductive SameRun (s : State) : State → Prop
  | encoder (f : Finder) (d : Decoder) (hop : statusOp s.status = .encode) : SameRun s (s.setUnreadByEncoder f d)
  | decoder (e : Encoder) (f : Finder) (off : Int) (cnt : Nat) (hop : statusOp s.status = .decode) :
      SameRun s (s.setUnreadByDecoder e f off cnt)

theorem SameRun.refl (s : State) : SameRun s s := by
  cases hop : statusOp s.status with
  | encode => exact .encoder s.fnd s.dec hop
  | decode => exact .decoder s.enc s.fnd s.dec.off s.dec.cnt hop

theorem SameRun.busy {s s' : State} (h : SameRun s s') : s'.busy = s.busy := by cases h <;> rfl

/-- `x'` gives a next state whenever `x` does, and the two run on alike. -/
def SameOutcome (x x' : Host.Outcome State Fault Refusal) : Prop :=
  ∀ t, x = .next t → ∃ t', x' = .next t' ∧ SameRun t t'

theorem SameOutcome.refl (x : Host.Outcome State Fault Refusal) : SameOutcome x x :=
  fun t h => ⟨t, h, .refl t⟩

theorem SameOutcome.next {s s' : State} (h : SameRun s s') : SameOutcome (.next s) (.next s') :=
  fun _ e => ⟨s', rfl, by cases e; exact h⟩

/-! ### The Encoder -/

/-- The flow of an action from `s.setUnreadByEncoder f d`: an error makes every agent register a free value (R184). -/
def Flow.setUnreadByEncoder (f : Finder) (d : Decoder) : Flow → Flow
  | .go s => .go (s.setUnreadByEncoder f d)
  | .raised s => .raised s
  | .stuck r => .stuck r

/-- The action neither reads nor writes `F.*` and `D.*`. -/
def IgnoresOthers (action : State → Flow) : Prop :=
  ∀ f d s, action (s.setUnreadByEncoder f d) = (action s).setUnreadByEncoder f d

theorem IgnoresOthers.andThen {action next : State → Flow} (h : IgnoresOthers action) (hn : IgnoresOthers next) :
    IgnoresOthers fun s => (action s).andThen next := by
  intro f d s
  simp only [h f d s]
  cases action s with
  | go t => exact hn f d t
  | raised t => rfl
  | stuck r => rfl

theorem appendByte_ignores (v : Byte) : IgnoresOthers (appendByte v) := by
  intro f d s
  by_cases h : s.enc.olen = s.params.outCap
  · rw [appendByte_raised v h]; exact appendByte_raised v h
  · rw [appendByte_go v h]; exact appendByte_go v h

theorem finalizeRun_ignores : IgnoresOthers finalizeRun := by
  intro f d s
  cases h : s.enc.hdr with
  | none => rw [finalizeRun_stuck h]; exact finalizeRun_stuck h
  | some a => rw [finalizeRun_go h]; exact finalizeRun_go h

/-- An action that goes on by a test of registers other than `F.*` and `D.*`. -/
theorem IgnoresOthers.ite {test : State → Bool} {yes no : State → Flow}
    (htest : ∀ f d s, test (State.setUnreadByEncoder f d s) = test s) (hyes : IgnoresOthers yes)
    (hno : IgnoresOthers no) : IgnoresOthers fun s => if test s then yes s else no s := by
  intro f d s
  simp only [htest f d s]
  cases test s with
  | true => exact hyes f d s
  | false => exact hno f d s

theorem go_ignores {update : State → State}
    (h : ∀ f d s, update (State.setUnreadByEncoder f d s) = (update s).setUnreadByEncoder f d) :
    IgnoresOthers fun s => .go (update s) :=
  fun f d s => congrArg Flow.go (h f d s)

theorem finalizeIfOpen_ignores : IgnoresOthers finalizeIfOpen :=
  .ite (test := fun s => s.enc.isOpen) (fun _ _ _ => rfl) finalizeRun_ignores (go_ignores fun _ _ _ => rfl)

theorem splitIfFull_ignores : IgnoresOthers splitIfFull :=
  .ite (test := fun s => s.enc.isOpen && decide (s.enc.runLen = Config.litMax)) (fun _ _ _ => rfl)
    finalizeRun_ignores (go_ignores fun _ _ _ => rfl)

theorem openRunIfClosed_ignores : IgnoresOthers openRunIfClosed :=
  .ite (test := fun s => s.enc.isOpen) (fun _ _ _ => rfl) (go_ignores fun _ _ _ => rfl) <|
    .andThen (fun f d s => appendByte_ignores (Config.freeByte s.fresh) f d (reserveHeader s))
      (go_ignores fun _ _ _ => rfl)

theorem emitLiteral_ignores : IgnoresOthers emitLiteral :=
  openRunIfClosed_ignores.andThen <|
    .andThen (fun f d t => appendByte_ignores (t.inByte t.enc.dst) f d t) (go_ignores fun _ _ _ => rfl)

theorem emitMatch_ignores (len src : Nat) : IgnoresOthers (emitMatch len src) :=
  finalizeIfOpen_ignores.andThen <|
    (appendByte_ignores _).andThen <|
      .andThen (fun f d u => appendByte_ignores (distanceByte src u.enc.dst) f d u) (go_ignores fun _ _ _ => rfl)

theorem finishEncode_ignores : IgnoresOthers finishEncode :=
  finalizeIfOpen_ignores.andThen <| (appendByte_ignores _).andThen (go_ignores fun _ _ _ => rfl)

/-- The scan sets `F.s` and `F.num` at each candidate before it reads them: their earlier values do not matter. -/
theorem findFold_ignores (byteAt : Nat → Byte) (candidates : List Nat) (f : Finder) (s num : Nat) :
    ∃ s' num', candidates.foldl (findCandidate byteAt) { f with s := s, num := num } =
      { candidates.foldl (findCandidate byteAt) f with s := s', num := num' } := by
  cases candidates with
  | nil => exact ⟨s, num, rfl⟩
  | cons c candidates => exact ⟨_, _, rfl⟩

theorem findNormalise_ignores (f : Finder) (s num : Nat) :
    findNormalise { f with s := s, num := num } = { findNormalise f with s := s, num := num } := by
  unfold findNormalise
  split <;> rfl

/-- FIND's result does not depend on the earlier `F.*` and `D.*`; only `F.s` and `F.num` may, when the window is
empty. -/
theorem findMatch_ignores (f : Finder) (d : Decoder) (s : State) :
    ∃ a num, findMatch (s.setUnreadByEncoder f d) =
      (findMatch s).setUnreadByEncoder { (findMatch s).fnd with s := a, num := num } d := by
  obtain ⟨a, num, h⟩ := findFold_ignores s.inByte (findWindow s.enc.dst)
    (findInit s.params s.inLen s.enc.dst s.fnd) f.s f.num
  exact ⟨a, num, congrArg (fun g => (s.setUnreadByEncoder f d).setFnd g)
    ((congrArg findNormalise h).trans (findNormalise_ignores _ a num))⟩

/-- The loop's body after a FIND that reports the length `len` and the position `source` (R121). -/
def emitFound (len : Nat) (source : Option Nat) (s : State) : Flow :=
  if accepts s.params s.enc.isOpen len then
    match source with
    | none => .stuck .bottomRead
    | some src => emitMatch len src s
  else (splitIfFull s).andThen emitLiteral

theorem encodeIteration_eq (s : State) :
    encodeIteration s = emitFound (findMatch s).fnd.bestLen (findMatch s).fnd.bestSrc (findMatch s) := rfl

theorem emitFound_ignores (len : Nat) (source : Option Nat) : IgnoresOthers (emitFound len source) := by
  refine .ite (test := fun s => accepts s.params s.enc.isOpen len) (fun _ _ _ => rfl) ?_
    (splitIfFull_ignores.andThen emitLiteral_ignores)
  cases source with
  | none => exact fun _ _ _ => rfl
  | some src => exact emitMatch_ignores len src

theorem encodeIteration_ignores (f : Finder) (d : Decoder) (s : State) :
    ∃ f', encodeIteration (s.setUnreadByEncoder f d) = (encodeIteration s).setUnreadByEncoder f' d := by
  obtain ⟨a, num, h⟩ := findMatch_ignores f d s
  rw [encodeIteration_eq, encodeIteration_eq, h]
  exact ⟨_, emitFound_ignores _ _ _ d (findMatch s)⟩

theorem encoderStep_ignores (f : Finder) (d : Decoder) (s : State) :
    ∃ x f', encoderStep s = Flow.toOutcome x ∧
      encoderStep (s.setUnreadByEncoder f d) = (x.setUnreadByEncoder f' d).toOutcome := by
  by_cases hmore : s.enc.dst < s.inLen
  · obtain ⟨f', h⟩ := encodeIteration_ignores f d s
    exact ⟨_, f', if_pos hmore, (if_pos hmore).trans (congrArg Flow.toOutcome h)⟩
  · exact ⟨_, f, if_neg hmore, (if_neg hmore).trans (congrArg Flow.toOutcome (finishEncode_ignores f d s))⟩

/-- A step keeps the running operation in `STATUS.OP`. -/
theorem AgentMove.op {s t : State} (h : AgentMove s t) : statusOp t.status = statusOp s.status := by
  cases h with
  | goesOn hstatus => rw [hstatus]
  | completes hstatus => rw [hstatus, statusOp_setStatusState]
  | fails hstatus => rw [hstatus, statusOp_setStatusState, statusOp_setStatusCause]

theorem encoderStep_sameOutcome {s : State} (f : Finder) (d : Decoder) (hop : statusOp s.status = .encode) :
    SameOutcome (encoderStep s) (encoderStep (s.setUnreadByEncoder f d)) := by
  intro t h
  have hop' : statusOp t.status = .encode := (encoderStep_move h).op.trans hop
  obtain ⟨x, f', hx, hx'⟩ := encoderStep_ignores f d s
  rw [hx] at h
  rw [hx']
  cases x with
  | go u => cases h; exact ⟨_, rfl, .encoder f' d hop'⟩
  | raised u => cases h; exact ⟨_, rfl, .refl _⟩
  | stuck r => cases h

/-! ### The Decoder -/

/-- LIT's copy neither reads nor writes `D.off`. -/
theorem copyLiteral_ignores (e : Encoder) (f : Finder) (off : Int) (payload : List Byte) (s : State) :
    copyLiteral payload (s.setUnreadByDecoder e f off s.dec.cnt) =
      (copyLiteral payload s).setUnreadByDecoder e f off (copyLiteral payload s).dec.cnt := by
  induction payload generalizing s with
  | nil => rfl
  | cons v payload ih => exact ih (literalPass v s)

/-- MATCH's copy reads and writes only `D.*` and OUT. -/
theorem copyMatch_ignores (e : Encoder) (f : Finder) (passes : Nat) (s : State) :
    copyMatch passes ((s.setEnc e).setFnd f) = ((copyMatch passes s).setEnc e).setFnd f := by
  induction passes generalizing s with
  | zero => rfl
  | succ passes ih => exact ih (matchPass s)

/-- LIT sets `D.cnt` before its copy. -/
theorem literalCopied_ignores (payload : List Byte) (e : Encoder) (f : Finder) (off : Int) (cnt : Nat) (s : State) :
    literalCopied payload (s.setUnreadByDecoder e f off cnt) =
      (literalCopied payload s).setUnreadByDecoder e f off (literalCopied payload s).dec.cnt :=
  congrArg (fun t : State => t.setDec { t.dec with src := t.dec.src + 1 + payload.length })
    (copyLiteral_ignores e f off payload (s.setDec { s.dec with cnt := payload.length }))

/-- MATCH sets `D.off` and `D.cnt` before its copy. -/
theorem matchCopied_ignores (m : BitVec 7) (b : Byte) (e : Encoder) (f : Finder) (off : Int) (cnt : Nat) (s : State) :
    matchCopied m b (s.setUnreadByDecoder e f off cnt) = ((matchCopied m b s).setEnc e).setFnd f :=
  congrArg (fun t : State => t.setDec { t.dec with src := t.dec.src + 2 })
    (copyMatch_ignores e f (matchLength m)
      (s.setDec { s.dec with off := matchOffset s.dec.dst b, cnt := matchLength m }))

theorem SameOutcome.ite {c : Prop} [Decidable c] {x y x' y' : Host.Outcome State Fault Refusal}
    (hyes : SameOutcome x x') (hno : SameOutcome y y') :
    SameOutcome (if c then x else y) (if c then x' else y') := by
  split
  · exact hyes
  · exact hno

section
variable {s : State} (e : Encoder) (f : Finder) (off : Int) (cnt : Nat) (hop : statusOp s.status = .decode)
include hop

theorem literalCopied_sameRun (payload : List Byte) :
    SameRun (literalCopied payload s) (literalCopied payload (s.setUnreadByDecoder e f off cnt)) := by
  rw [literalCopied_ignores]
  exact .decoder e f off _ ((literalCopied_frame payload s).move.op.trans hop)

theorem matchCopied_sameRun (m : BitVec 7) (b : Byte) :
    SameRun (matchCopied m b s) (matchCopied m b (s.setUnreadByDecoder e f off cnt)) := by
  rw [matchCopied_ignores]
  exact .decoder e f _ _ ((matchCopied_frame m b s).move.op.trans hop)

/-- The checks of LIT read only registers that are the same, and each error gives the same state. -/
theorem execLit_sameOutcome (payload : List Byte) :
    SameOutcome (execLit payload s) (execLit payload (s.setUnreadByDecoder e f off cnt)) :=
  .ite (.refl _) (.ite (.refl _) (.next (literalCopied_sameRun e f off cnt hop payload)))

theorem execMatch_sameOutcome (m : BitVec 7) (b : Byte) :
    SameOutcome (execMatch m b s) (execMatch m b (s.setUnreadByDecoder e f off cnt)) :=
  .ite (.refl _) (.ite (.refl _) (.ite (.refl _) (.next (matchCopied_sameRun e f off cnt hop m b))))

theorem execEnd_sameOutcome : SameOutcome (execEnd s) (execEnd (s.setUnreadByDecoder e f off cnt)) :=
  .next (.decoder e f off cnt ((statusOp_setStatusState .done s.status).trans hop))

theorem decoderStep_sameOutcome :
    SameOutcome (decoderStep s) (decoderStep (s.setUnreadByDecoder e f off cnt)) := by
  have hfetch : fetchBytes (s.setUnreadByDecoder e f off cnt) = fetchBytes s := rfl
  unfold decoderStep
  rw [hfetch]
  split
  · rcases decodeToken_token ‹_› with rfl | ⟨payload, rfl, -⟩ | ⟨m, b, rfl⟩
    · exact execEnd_sameOutcome e f off cnt hop
    · exact execLit_sameOutcome e f off cnt hop payload
    · exact execMatch_sameOutcome e f off cnt hop m b
  · exact .refl _

end

/-! ### A whole operation -/

theorem blockStep_sameOutcome {s s' : State} (h : SameRun s s') : SameOutcome (blockStep s) (blockStep s') := by
  cases hbusy : s.busy with
  | false =>
    rw [blockStep_not_busy hbusy, blockStep_not_busy (h.busy.trans hbusy)]
    exact .next h
  | true =>
    have hstate := (busy_iff s).1 hbusy
    cases h with
    | encoder f d hop =>
      have henc := (encoding_iff s).2 ⟨hstate, hop⟩
      have henc' : (s.setUnreadByEncoder f d).encoding = true := henc
      rw [blockStep_encoding henc, blockStep_encoding henc']
      exact encoderStep_sameOutcome f d hop
    | decoder e f off cnt hop =>
      have hdec := (decoding_iff s).2 ⟨hstate, hop⟩
      have hdec' : (s.setUnreadByDecoder e f off cnt).decoding = true := hdec
      rw [blockStep_decoding hdec, blockStep_decoding hdec']
      exact decoderStep_sameOutcome e f off cnt hop

theorem runBlock_sameOutcome {s s' : State} (k : Nat) (h : SameRun s s') :
    SameOutcome (runBlock k s) (runBlock k s') := by
  induction k generalizing s s' with
  | zero => exact .next h
  | succ k ih =>
    intro t hrun
    obtain ⟨u, hu, hrun⟩ := runBlock_succ_cases hrun
    obtain ⟨u', hu', hsame⟩ := blockStep_sameOutcome h u hu
    rw [runBlock_succ k hu']
    exact ih hsame t hrun

/-- A command makes every register its operation reads, OUT and `OUT_LEN` independent of what they held: it initialises
them or draws them anew (R21, R24, R184). -/
theorem execCommand_sameOutcome (op : Op) (s : State) (e : Encoder) (f : Finder) (d : Decoder) (m : Memory)
    (epoch len : Nat) :
    SameOutcome (execCommand op s)
      (execCommand op { s with enc := e, fnd := f, dec := d, outMem := m, outEpoch := epoch, outLen := len }) := by
  refine .ite (.refl _) (.ite (.refl _) (.next ?_))
  have hop := (startOperation_fields s op).2.1
  cases op with
  | encode => exact .encoder f d hop
  | decode => exact .decoder e f d.off d.cnt hop

/-- Settles O43: the command leads to states that differ only in unread registers, and every step keeps that. -/
theorem resultIndependentOfEarlierState : Obligations.ResultIndependentOfEarlierState := by
  unfold Obligations.ResultIndependentOfEarlierState
  intro i s u t k e f d m epoch len hi hexec hrun
  obtain ⟨op, hop⟩ : ∃ op, exec i = execCommand op := by
    rcases hi with rfl | rfl
    · exact ⟨.encode, rfl⟩
    · exact ⟨.decode, rfl⟩
  rw [hop] at hexec ⊢
  obtain ⟨u', hexec', hu⟩ := execCommand_sameOutcome op s e f d m epoch len u hexec
  obtain ⟨t', hrun', ht⟩ := runBlock_sameOutcome k hu t hrun
  refine ⟨u', t', hexec', hrun', ?_⟩
  cases ht <;> exact ⟨rfl, rfl, rfl, rfl, rfl⟩

end Sys2Proof.Machine

/-! SUPPORT. The memories (20_memory.md): FIND reads IN only below `n` (R57), the block never writes IN (R61), and what is
left unspecified is drawn anew (R59). -/

namespace Sys2Proof.Machine

/-! ## FIND reads only the input (20_memory.md R57, 40_match_finder.md R102) -/

/-- The inner loop reads no more than the bytes its passes allow from either position. -/
theorem matchRun_congr {byteAt byteAt' : Nat → Byte} {s d passes num : Nat}
    (hs : ∀ i, i < num + passes → byteAt' (s + i) = byteAt (s + i))
    (hd : ∀ i, i < num + passes → byteAt' (d + i) = byteAt (d + i)) :
    matchRun byteAt' s d passes num = matchRun byteAt s d passes num := by
  induction passes generalizing num with
  | zero => rfl
  | succ passes ih =>
    have hlt : num < num + (passes + 1) := by omega
    have hrest : matchRun byteAt' s d passes (num + 1) = matchRun byteAt s d passes (num + 1) :=
      ih (fun i hi => hs i (by omega)) (fun i hi => hd i (by omega))
    simp only [matchRun, hs num hlt, hd num hlt, hrest]

@[simp] theorem findCandidate_lim (byteAt : Nat → Byte) (f : Finder) (c : Nat) :
    (findCandidate byteAt f c).lim = f.lim := by
  unfold findCandidate; simp only; split <;> rfl

section
variable {byteAt byteAt' : Nat → Byte} {n : Nat} (hagree : ∀ a, a < n → byteAt' a = byteAt a)
include hagree

/-- A candidate stands before `d`, and the bound `lim` keeps the reads from `d` on below `n`. -/
theorem candidateLength_congr {d lim c : Nat} (hlim : lim ≤ n - d) (hc : c < d) :
    candidateLength byteAt' d lim c = candidateLength byteAt d lim c :=
  matchRun_congr (fun i hi => hagree (c + i) (by omega)) (fun i hi => hagree (d + i) (by omega))

theorem findCandidate_congr {f : Finder} {c : Nat} (hlim : f.lim ≤ n - f.d) (hc : c < f.d) :
    findCandidate byteAt' f c = findCandidate byteAt f c := by
  simp only [findCandidate, candidateLength_congr hagree hlim hc]

/-- The scan keeps `F.d` and `F.lim`, so no candidate reads past the input. -/
theorem findFold_congr (candidates : List Nat) {f : Finder} (hlim : f.lim ≤ n - f.d)
    (hc : ∀ c ∈ candidates, c < f.d) :
    candidates.foldl (findCandidate byteAt') f = candidates.foldl (findCandidate byteAt) f := by
  induction candidates generalizing f with
  | nil => rfl
  | cons c candidates ih =>
    rw [List.foldl_cons, List.foldl_cons, findCandidate_congr hagree hlim (hc c List.mem_cons_self)]
    refine ih ?_ fun x hx => ?_
    · rwa [findCandidate_lim, findCandidate_d]
    · rw [findCandidate_d]; exact hc x (List.mem_cons_of_mem c hx)

end

/-- Settles O27: FIND starts both scans in one state, and `F.lim` is at most `n - E.dst`. -/
theorem findReadsOnlyTheInput : Obligations.FindReadsOnlyTheInput := by
  unfold Obligations.FindReadsOnlyTheInput
  intro s s' hparams hlen hdst hfnd hagree
  have hscan := findFold_congr hagree (findWindow s.enc.dst) (f := findInit s.params s.inLen s.enc.dst s.fnd)
    (Nat.min_le_left _ _) fun c hc => (mem_findWindow.1 hc).2
  simp only [findMatch, setFnd_fnd, hparams, hlen, hdst, hfnd, hscan]

/-! ## The block never writes IN (20_memory.md R51, R61) -/

/-- `t` has the input of `s`, and what belongs to the host. -/
structure InputKept (s t : State) : Prop where
  inMem : t.inMem = s.inMem
  inByte : t.inByte = s.inByte
  inLen : t.inLen = s.inLen
  host : t.host = s.host
  readData : t.readData = s.readData

theorem InputKept.refl (s : State) : InputKept s s := ⟨rfl, rfl, rfl, rfl, rfl⟩

theorem InputKept.trans {s t u : State} (h : InputKept s t) (h' : InputKept t u) : InputKept s u :=
  ⟨h'.inMem.trans h.inMem, h'.inByte.trans h.inByte, h'.inLen.trans h.inLen, h'.host.trans h.host,
    h'.readData.trans h.readData⟩

theorem takeError_inputKept (c : Cause) (pos : Nat) (s : State) : InputKept s (takeError c pos s) :=
  ⟨rfl, rfl, rfl, rfl, rfl⟩

theorem completeOperation_inputKept (len : Nat) (s : State) : InputKept s (completeOperation len s) :=
  ⟨rfl, rfl, rfl, rfl, rfl⟩

theorem EncoderFrame.inputKept {s t : State} (h : EncoderFrame s t) : InputKept s t := by
  rw [h.eq]; exact ⟨rfl, rfl, rfl, rfl, rfl⟩

theorem DecoderFrame.inputKept {s t : State} (h : DecoderFrame s t) : InputKept s t := by
  rw [h]; exact ⟨rfl, rfl, rfl, rfl, rfl⟩

theorem encoderStep_inputKept {s t : State} (h : encoderStep s = .next t) : InputKept s t := by
  rcases encoderStep_cases s with ⟨u, e, hf⟩ | ⟨u, len, e, hf⟩ | ⟨u, pos, e, hf⟩ | ⟨r, e⟩ <;> rw [e] at h <;> cases h
  · exact hf.inputKept
  · exact hf.inputKept.trans (completeOperation_inputKept len u)
  · exact hf.inputKept.trans (takeError_inputKept .outputOverflow pos u)

theorem decoderStep_inputKept {s t : State} (h : decoderStep s = .next t) : InputKept s t := by
  rcases decoderStep_cases s with ⟨c, -, e⟩ | e | ⟨p, e, -⟩ | ⟨m, d, e, -⟩ <;> rw [e] at h <;> cases h
  · exact takeError_inputKept c s.dec.src s
  · exact completeOperation_inputKept s.dec.dst s
  · exact (literalCopied_frame p s).inputKept
  · exact (matchCopied_frame m d s).inputKept

theorem blockStep_inputKept {s t : State} (h : blockStep s = .next t) : InputKept s t := by
  cases hbusy : s.busy with
  | false => rw [blockStep_not_busy hbusy] at h; cases h; exact .refl s
  | true =>
    rcases busy_cases hbusy with ⟨henc, -⟩ | ⟨-, hdec⟩
    · rw [blockStep_encoding henc] at h; exact encoderStep_inputKept h
    · rw [blockStep_decoding hdec] at h; exact decoderStep_inputKept h

/-- Settles O42: the frame of each agent, an error and completion all keep the input. -/
theorem blockNeverWritesInput : Obligations.BlockNeverWritesInput := by
  unfold Obligations.BlockNeverWritesInput
  intro s t h
  obtain ⟨hmem, hbyte, hlen, hhost, hread⟩ := blockStep_inputKept h
  exact ⟨hmem, hbyte, hlen, hhost, hread⟩

/-! ## Unspecified contents (20_memory.md R59, 60_exceptions.md R184, 70_reset_and_hazards.md R201) -/

/-- A byte that nothing has written is the free value of the memory's epoch. -/
theorem inByte_of_inMem_nil {s : State} (h : s.inMem = []) (a : Nat) :
    s.inByte a = Config.unwrittenIn s.inEpoch a := by
  rw [State.inByte, h]; rfl

theorem outByte_of_outMem_nil {s : State} (h : s.outMem = []) (a : Nat) :
    s.outByte a = Config.unwrittenOut s.outEpoch a := by
  rw [State.outByte, h]; rfl

/-- Every byte of OUT in `t` is the free value of a later event than the one OUT stood for in `s`. -/
def OutputDrawnAnew (s t : State) : Prop :=
  s.outEpoch < t.outEpoch ∧ ∀ a, t.outByte a = Config.unwrittenOut t.outEpoch a

/-- Emptying OUT at an event numbered from `s.fresh` on draws it anew: the invariant has `s.outEpoch` below that. -/
theorem Inv.outputDrawnAnew {s t : State} (h : Inv s) (hmem : t.outMem = []) (hepoch : s.fresh ≤ t.outEpoch) :
    OutputDrawnAnew s t :=
  ⟨Nat.lt_of_lt_of_le h.memories.outEpoch hepoch, outByte_of_outMem_nil hmem⟩

theorem execCommand_outputDrawnAnew {op : Op} {s t : State} (h : Inv s) (hexec : execCommand op s = .next t) :
    OutputDrawnAnew s t := by
  obtain ⟨-, rfl | rfl⟩ := execCommand_cases hexec
  · cases op <;> exact h.outputDrawnAnew rfl (Nat.le_refl _)
  · exact h.outputDrawnAnew rfl (Nat.le_succ _)

/-- Settles O53: a command, an error and a reset each empty OUT, and a reset IN, and give it the epoch of a new event. -/
theorem unspecifiedContentsAreDrawnAnew : Obligations.UnspecifiedContentsAreDrawnAnew := by
  unfold Obligations.UnspecifiedContentsAreDrawnAnew
  intro s h
  refine ⟨?_, fun c pos => h.outputDrawnAnew rfl (Nat.le_refl _), fun rest hhost => ?_⟩
  · rintro i t (rfl | rfl) hexec
    · exact execCommand_outputDrawnAnew (op := .encode) h hexec
    · exact execCommand_outputDrawnAnew (op := .decode) h hexec
  · obtain ⟨hepoch, hout⟩ : OutputDrawnAnew s (hostReset { s with host := rest }) :=
      h.outputDrawnAnew rfl (Nat.le_refl _)
    exact ⟨_, step_hostAct hhost nofun, h.memories.inEpoch, hepoch,
      fun a => ⟨inByte_of_inMem_nil rfl a, hout a⟩⟩

end Sys2Proof.Machine

/-! SUPPORT. The token format (30_encoding.md R70 to R82): the one way bytes read as a token, the equations of the two
decoders, and from them that decoding and encoding are inverse to each other. -/

namespace Sys2Proof

/-! ## Tokens (30_encoding.md R71 to R78) -/

/-- How bytes read as a token and a rest, one constructor for each form of R71. -/
inductive ReadsToken : List Byte → Instr → List Byte → Prop
  | tokEnd (rest : List Byte) : ReadsToken (Config.terminator :: rest) .tokEnd rest
  | tokLit {h : Byte} {payload : List Byte} (h0 : h ≠ Config.terminator) (h7 : headerBit7 h = false)
      (hcount : (headerField h).toNat = payload.length) (rest : List Byte) :
      ReadsToken (h :: (payload ++ rest)) (.tokLit payload) rest
  | tokMatch {h : Byte} (h7 : headerBit7 h = true) (d : Byte) (rest : List Byte) :
      ReadsToken (h :: d :: rest) (.tokMatch (headerField h) d) rest

theorem ne_terminator_of_headerBit7 {h : Byte} (h7 : headerBit7 h = true) : h ≠ Config.terminator := by
  rintro rfl
  exact absurd h7 (by decide)

theorem decodeToken_terminator (rest : List Byte) :
    decodeToken (Config.terminator :: rest) = .instr .tokEnd rest := by
  simp [decodeToken]

theorem decodeToken_lit {h : Byte} {bytes : List Byte} (h0 : h ≠ Config.terminator) (h7 : headerBit7 h = false)
    (hlen : (headerField h).toNat ≤ bytes.length) :
    decodeToken (h :: bytes) =
      .instr (.tokLit (bytes.take (headerField h).toNat)) (bytes.drop (headerField h).toNat) := by
  simp [decodeToken, h0, h7, Nat.not_lt.2 hlen]

theorem decodeToken_truncatedLiteral {h : Byte} {bytes : List Byte} (h0 : h ≠ Config.terminator)
    (h7 : headerBit7 h = false) (hlen : bytes.length < (headerField h).toNat) :
    decodeToken (h :: bytes) = .rejected .truncatedLiteral := by
  simp [decodeToken, h0, h7, hlen]

theorem decodeToken_match {h : Byte} (h7 : headerBit7 h = true) (d : Byte) (rest : List Byte) :
    decodeToken (h :: d :: rest) = .instr (.tokMatch (headerField h) d) rest := by
  simp [decodeToken, ne_terminator_of_headerBit7 h7, h7]

theorem decodeToken_truncatedMatch {h : Byte} (h7 : headerBit7 h = true) :
    decodeToken [h] = .rejected .truncatedMatch := by
  simp [decodeToken, ne_terminator_of_headerBit7 h7, h7]

/-- The token decoder answers a token exactly when the bytes read as it. -/
theorem decodeToken_eq_instr_iff {bytes : List Byte} {i : Instr} {rest : List Byte} :
    decodeToken bytes = .instr i rest ↔ ReadsToken bytes i rest := by
  constructor
  · intro hdecode
    unfold decodeToken at hdecode
    split at hdecode
    · cases hdecode
    rename_i h bytes
    split at hdecode
    next h0 => cases hdecode; subst h0; exact .tokEnd _
    next h0 =>
      split at hdecode
      next h7 =>
        split at hdecode
        · cases hdecode
        · cases hdecode; exact .tokMatch h7 _ _
      next h7 =>
        simp only at hdecode
        split at hdecode
        · cases hdecode
        next hlen =>
          cases hdecode
          have hread := ReadsToken.tokLit (payload := bytes.take (headerField h).toNat) h0
            (Bool.eq_false_of_not_eq_true h7) (by rw [List.length_take]; omega) (bytes.drop (headerField h).toNat)
          rwa [List.take_append_drop] at hread
  · rintro (_ | ⟨h0, h7, hcount⟩ | ⟨h7⟩)
    · exact decodeToken_terminator _
    · rw [decodeToken_lit h0 h7 (by rw [hcount, List.length_append]; omega), hcount, List.take_left, List.drop_left]
    · exact decodeToken_match h7 _ _

/-- The encoding of a well-formed token reads as that token. -/
theorem readsToken_encode {i : Instr} (hwf : i.wellFormed = true) (htok : i.isToken = true) (rest : List Byte) :
    ReadsToken (encode i ++ rest) i rest := by
  cases i with
  | tokEnd => exact .tokEnd rest
  | tokLit payload =>
    simp only [Instr.wellFormed, Bool.and_eq_true, decide_eq_true_eq] at hwf
    obtain ⟨h0, h7, hcount⟩ := litHeader_spec hwf.1 hwf.2
    exact .tokLit h0 h7 hcount rest
  | tokMatch m d => simpa [encode] using ReadsToken.tokMatch (headerBit7_matchHeader m) d rest
  | cmdEncode | cmdDecode => cases htok

/-- What bytes read as is a well-formed token whose encoding they begin with. -/
theorem ReadsToken.encode_append {bytes : List Byte} {i : Instr} {rest : List Byte} (h : ReadsToken bytes i rest) :
    i.wellFormed = true ∧ i.isToken = true ∧ encode i ++ rest = bytes := by
  cases h with
  | tokEnd => exact ⟨rfl, rfl, rfl⟩
  | tokLit h0 h7 hcount =>
    obtain ⟨hheader, hmin, hmax⟩ := litHeader_headerField h0 h7
    rw [hcount] at hheader hmin hmax
    exact ⟨by simp [Instr.wellFormed, hmin, hmax], rfl, by simp [encode, hheader]⟩
  | tokMatch h7 d => exact ⟨rfl, rfl, by simp [encode, matchHeader_headerField h7]⟩

/-- The bytes a token takes are as many as its header byte tells (R73). -/
theorem ReadsToken.length_eq {h : Byte} {bytes : List Byte} {i : Instr} {rest : List Byte}
    (hread : ReadsToken (h :: bytes) i rest) : (h :: bytes).length = rest.length + tokenLength h := by
  cases hread with
  | tokEnd => simp [tokenLength]
  | tokLit h0 h7 hcount =>
    simp only [tokenLength, h0, h7, hcount, List.length_cons, List.length_append, if_false, Bool.false_eq_true]
    omega
  | tokMatch h7 d => simp [tokenLength, ne_terminator_of_headerBit7 h7, h7]

/-! ## Commands (30_encoding.md R80) -/

theorem decodeCommand_encode : decodeCommand 0x00#8 = .instr .cmdEncode [] := rfl

theorem decodeCommand_decode : decodeCommand 0x01#8 = .instr .cmdDecode [] := rfl

theorem decodeCommand_reserved {v : Byte} (hv : 0x02#8 ≤ v) : decodeCommand v = .rejected .reservedCommand := by
  have h0 : v ≠ 0x00#8 := by bv_omega
  have h1 : v ≠ 0x01#8 := by bv_omega
  simp [decodeCommand, h0, h1]

/-- A `CMD` value that decodes is the encoding of its command. -/
theorem decodeCommand_eq_instr {v : Byte} {i : Instr} {rest : List Byte} (h : decodeCommand v = .instr i rest) :
    i.wellFormed = true ∧ i.isToken = false ∧ encode i = [v] ∧ rest = [] := by
  unfold decodeCommand at h
  split at h
  next hv => cases h; subst hv; exact ⟨rfl, rfl, rfl, rfl⟩
  next =>
    split at h
    next hv => cases h; subst hv; exact ⟨rfl, rfl, rfl, rfl⟩
    next => cases h

end Sys2Proof

namespace Sys2Proof.Machine

/-! ## Decoding and encoding are inverse -/

/-- Settles O8: a token's encoding reads as the token, and the two commands decode by evaluation. -/
theorem decodeOfEncodeIsIdentity : Obligations.DecodeOfEncodeIsIdentity := by
  unfold Obligations.DecodeOfEncodeIsIdentity
  intro i hwf
  refine ⟨fun htok rest => decodeToken_eq_instr_iff.2 (readsToken_encode hwf htok rest), fun hcmd => ?_⟩
  cases i with
  | cmdEncode => exact ⟨_, rfl, decodeCommand_encode⟩
  | cmdDecode => exact ⟨_, rfl, decodeCommand_decode⟩
  | tokEnd | tokLit | tokMatch => cases hcmd

/-- Settles O9: bytes that decode read as a token, and what reads as a token begins with its encoding. -/
theorem encodeOfDecodeIsIdentity : Obligations.EncodeOfDecodeIsIdentity := by
  unfold Obligations.EncodeOfDecodeIsIdentity
  exact ⟨fun _ _ _ hdecode => (decodeToken_eq_instr_iff.1 hdecode).encode_append,
    fun _ _ _ hdecode => decodeCommand_eq_instr hdecode⟩

/-! ## The forms of the tokens and commands -/

/-- Settles O4, by evaluating the two decoders on the bytes of R82. -/
theorem workedEncodingsDecode : Obligations.WorkedEncodingsDecode := by
  unfold Obligations.WorkedEncodingsDecode
  decide

/-- Settles O5: one equation of the token decoder for each clause. -/
theorem headerByteSelectsToken : Obligations.HeaderByteSelectsToken := by
  unfold Obligations.HeaderByteSelectsToken
  refine ⟨rfl, fun h rest => ⟨?_, decodeToken_lit, decodeToken_truncatedLiteral, ?_, ?_⟩⟩
  · rintro rfl
    exact decodeToken_terminator rest
  · rintro h7 d rest' rfl
    exact decodeToken_match h7 d rest'
  · rintro h7 rfl
    exact decodeToken_truncatedMatch h7

/-- Settles O6: the stated length is `tokenLength` of the header byte. -/
theorem tokenLengthFollowsFromHeader : Obligations.TokenLengthFollowsFromHeader := by
  unfold Obligations.TokenLengthFollowsFromHeader
  exact fun _ _ _ _ hdecode => (decodeToken_eq_instr_iff.1 hdecode).length_eq

/-- Settles O7, by the equations of the command decoder. -/
theorem commandValuesDecode : Obligations.CommandValuesDecode := by
  unfold Obligations.CommandValuesDecode
  exact ⟨decodeCommand_encode, decodeCommand_decode, fun _ => decodeCommand_reserved⟩

/-! ## The distance byte (30_encoding.md R75, R76) -/

theorem distanceByte_toNat (src dst : Nat) :
    ((distanceByte src dst).toNat : Int) = ((src : Int) - dst + 256) % 256 := by
  rw [distanceByte, BitVec.toNat_ofInt]
  simp only [Config.window]
  omega

/-- Settles O10: 1 to 256 apart, `src - dst + 256` is in 0..255, so the byte holds it whole. -/
theorem distanceByteLeadsBackToSource : Obligations.DistanceByteLeadsBackToSource := by
  unfold Obligations.DistanceByteLeadsBackToSource
  intro src dst hlt hwindow
  have hbyte := distanceByte_toNat src dst
  refine ⟨hbyte, ?_⟩
  rw [matchOffset, hbyte, Int.emod_eq_of_lt (by omega) (by omega)]
  simp only [Config.window]
  omega

/-! ## A byte written to `CMD` (10_state.md R21, 30_encoding.md R80) -/

theorem hostCommand_of_instr {v : Byte} {i : Instr} {rest : List Byte} (h : decodeCommand v = .instr i rest)
    (s : State) : hostCommand v.toNat s = exec i s := by
  simp [hostCommand, v.isLt, h]

theorem hostCommand_of_rejected {v : Byte} {why : Reject} (h : decodeCommand v = .rejected why) (s : State) :
    hostCommand v.toNat s = .refused .reservedCommandBits := by
  simp [hostCommand, v.isLt, h]

/-- Settles O13: the step takes the write, and the write follows what the command decoder answers. -/
theorem stepRunsCommandWrittenToCmd : Obligations.StepRunsCommandWrittenToCmd := by
  unfold Obligations.StepRunsCommandWrittenToCmd
  intro s v rest hhost
  have hstep : step s = hostCommand v.toNat { s with host := rest } := step_hostAct hhost nofun
  rw [hstep]
  refine ⟨?_, ?_, fun hv => hostCommand_of_rejected (decodeCommand_reserved hv) _⟩
  · rintro rfl
    exact hostCommand_of_instr decodeCommand_encode _
  · rintro rfl
    exact hostCommand_of_instr decodeCommand_decode _

end Sys2Proof.Machine

/-! SUPPORT. What FIND returns (40_match_finder.md R102 to R105): a candidate's length is a maximum, and the normalised
scan is the longest match at its earliest position. -/

namespace Sys2Proof.Machine

/-! ## A candidate's length (R102) -/

/-- Settles O25: below the length all bytes are equal, and at the length the bound or a differing byte stops the run. -/
theorem candidateLengthIsGreatest : Obligations.CandidateLengthIsGreatest := by
  unfold Obligations.CandidateLengthIsGreatest
  intro byteAt d lim c k
  obtain ⟨hbound, hequal, hstop⟩ := candidateLength_spec byteAt d lim c
  constructor
  · exact fun hk => ⟨hk.trans hbound, fun i hi => hequal i (hi.trans_le hk)⟩
  · rintro ⟨hk, hbytes⟩
    by_contra hlt
    exact hstop (by omega) (hbytes _ (by omega))

/-! ## The normalised scan (R104, R105) -/

theorem findNormalise_of_lt {f : Finder} (h : f.bestLen < 2) :
    findNormalise f = { f with bestLen := 0, bestSrc := none } := if_pos h

theorem findNormalise_of_le {f : Finder} (h : 2 ≤ f.bestLen) : findNormalise f = f := if_neg (Nat.not_lt.2 h)

/-- `c` is the first of `candidates` to reach their greatest length, which is `len` and at least 2. -/
structure EarliestLongest (byteAt : Nat → Byte) (d lim : Nat) (candidates : List Nat) (c len : Nat) : Prop where
  atLeastTwo : 2 ≤ len
  mem : c ∈ candidates
  length : candidateLength byteAt d lim c = len
  greatest : ∀ c' ∈ candidates, candidateLength byteAt d lim c' ≤ len
  earliest : ∀ c' ∈ candidates, c' < c → candidateLength byteAt d lim c' < len

/-- What a scan answers once normalised: the earliest longest match, or none when every candidate is shorter than 2. -/
theorem Scanned.normalised {byteAt : Nat → Byte} {d lim : Nat} {seen : List Nat} {f : Finder}
    (h : Scanned byteAt d lim seen f) :
    (∃ c, (findNormalise f).bestSrc = some c ∧ EarliestLongest byteAt d lim seen c (findNormalise f).bestLen) ∨
    ((findNormalise f).bestSrc = none ∧ (findNormalise f).bestLen = 0 ∧
      ∀ c ∈ seen, candidateLength byteAt d lim c < 2) := by
  rcases Nat.lt_or_ge f.bestLen 2 with hshort | hlong
  · rw [findNormalise_of_lt hshort]
    exact .inr ⟨rfl, rfl, fun c hc => (h.greatest c hc).trans_lt hshort⟩
  · rw [findNormalise_of_le hlong]
    rcases h.best with ⟨-, hzero⟩ | ⟨c, hmem, hsrc, hlen, -, hearliest⟩
    · omega
    · exact .inl ⟨c, hsrc, hlong, hmem, hlen, h.greatest, hearliest⟩

/-- What FIND returns (R105): its result is the normalised scan of the window. -/
theorem findMatch_result (s : State) :
    (∃ c, (findMatch s).fnd.bestSrc = some c ∧
      EarliestLongest s.inByte s.enc.dst (min (s.inLen - s.enc.dst) s.params.matchLimit) (findWindow s.enc.dst) c
        (findMatch s).fnd.bestLen) ∨
    ((findMatch s).fnd.bestSrc = none ∧ (findMatch s).fnd.bestLen = 0 ∧
      ∀ c ∈ findWindow s.enc.dst,
        candidateLength s.inByte s.enc.dst (min (s.inLen - s.enc.dst) s.params.matchLimit) c < 2) :=
  (findScan_scanned s).normalised

/-- Settles O26: FIND writes only `F.*`, and its result is the earliest longest match or none. -/
theorem findReturnsEarliestLongestMatch : Obligations.FindReturnsEarliestLongestMatch := by
  unfold Obligations.FindReturnsEarliestLongestMatch
  intro s
  refine ⟨findMatch_frame s, ?_⟩
  rcases findMatch_result s with ⟨b, hsrc, hbest⟩ | ⟨hnone, hzero, hshort⟩
  · refine ⟨fun c hc => ?_, fun hnone => (nomatch hsrc.symm.trans hnone)⟩
    obtain rfl : b = c := Option.some.inj (hsrc.symm.trans hc)
    obtain ⟨hlow, hhigh⟩ := mem_findWindow.1 hbest.mem
    refine ⟨hbest.atLeastTwo, hlow, hhigh, hbest.length, fun c' hlow' hhigh' => ?_⟩
    have hmem : c' ∈ findWindow s.enc.dst := mem_findWindow.2 ⟨hlow', hhigh'⟩
    exact ⟨hbest.greatest c' hmem, hbest.earliest c' hmem⟩
  · exact ⟨fun c hc => (nomatch hnone.symm.trans hc),
      fun _ => ⟨hzero, fun c' hlow' hhigh' => hshort c' (mem_findWindow.2 ⟨hlow', hhigh'⟩)⟩⟩

end Sys2Proof.Machine

/-! SUPPORT. The actions of the Encoder (41_encoder.md R122 to R128): the bytes of OUT after each of them, and from
these rules what each action appends, patches and leaves unchanged. -/

namespace Sys2Proof.Machine

/-! ## The bytes an action writes -/

theorem sameOutputOutside_storeOut (s : State) (a : Nat) (v : Byte) :
    SameOutputOutside a (a + 1) s (s.storeOut a v) := by
  intro b hb
  rw [outByte_storeOut, if_neg (by omega)]

theorem closed_of_open {s : State} {h : Nat} (hopen : s.enc.isOpen = true) (hhdr : s.enc.hdr = some h) :
    closed s = (s.storeOut h (litHeader s.enc.runLen)).setEnc { s.enc with isOpen := false, hdr := none } := by
  rw [closed, if_pos hopen, hhdr]; rfl

theorem closed_of_closed {s : State} (hopen : s.enc.isOpen = false) : closed s = s := by
  rw [closed, if_neg (by simp [hopen])]

/-- Closing a run changes no byte of OUT but the reserved header. -/
theorem closed_outByte_other {s : State} {a : Nat} (hhdr : s.enc.isOpen = true → ∃ h, s.enc.hdr = some h)
    (ha : ¬ (s.enc.isOpen = true ∧ s.enc.hdr = some a)) : (closed s).outByte a = s.outByte a := by
  cases hopen : s.enc.isOpen with
  | false => rw [closed_of_closed hopen]
  | true =>
    obtain ⟨h, hh⟩ := hhdr hopen
    have hne : a ≠ h := fun e => ha ⟨hopen, e ▸ hh⟩
    rw [closed_of_open hopen hh, setEnc_outByte, outByte_storeOut, if_neg hne]

theorem closed_outByte_header {s : State} {h : Nat} (hopen : s.enc.isOpen = true) (hhdr : s.enc.hdr = some h) :
    (closed s).outByte h = litHeader s.enc.runLen := by
  rw [closed_of_open hopen hhdr, setEnc_outByte, storeOut_outByte_same]

/-- Closing changes, of the registers, only `E.open` and `E.hdr`, which then say that no run is open. -/
theorem closed_eq {s : State} (hhdr : s.enc.isOpen = true → ∃ h, s.enc.hdr = some h)
    (hnone : s.enc.isOpen = false → s.enc.hdr = none) :
    closed s = { s with enc := { s.enc with isOpen := false, hdr := none }, outMem := (closed s).outMem } := by
  cases hopen : s.enc.isOpen with
  | true =>
    obtain ⟨h, hh⟩ := hhdr hopen
    rw [closed_of_open hopen hh]; rfl
  | false => rw [closed_of_closed hopen, ← hnone hopen, ← hopen]

theorem literalEmitted_of_open {s : State} (hopen : s.enc.isOpen = true) :
    literalEmitted s = (s.storeOut s.enc.olen (s.inByte s.enc.dst)).setEnc
      { s.enc with olen := s.enc.olen + 1, runLen := s.enc.runLen + 1, dst := s.enc.dst + 1 } := by
  rw [literalEmitted, opened, if_pos hopen]

theorem literalEmitted_of_closed {s : State} (hopen : s.enc.isOpen = false) :
    literalEmitted s =
      { (s.storeOut s.enc.olen (Config.freeByte s.fresh)).storeOut (s.enc.olen + 1) (s.inByte s.enc.dst) with
        enc := { dst := s.enc.dst + 1, isOpen := true, runLen := 1, hdr := some s.enc.olen, olen := s.enc.olen + 2 }
        fresh := s.fresh + 1 } := by
  rw [literalEmitted, opened, if_neg (by simp [hopen])]; rfl

theorem opened_olen_of_closed {s : State} (hopen : s.enc.isOpen = false) :
    (opened s).enc.olen = s.enc.olen + 1 := by
  rw [opened, if_neg (by simp [hopen])]

theorem opened_olen_of_open {s : State} (hopen : s.enc.isOpen = true) : (opened s).enc.olen = s.enc.olen := by
  rw [opened, if_pos hopen]

/-- The bytes of OUT after EmitMatch: the header, the distance byte, and the rest as closing the run leaves it. -/
theorem matchEmitted_outByte (len src : Nat) (s : State) (a : Nat) :
    (matchEmitted len src s).outByte a =
      if a = s.enc.olen + 1 then distanceByte src s.enc.dst
      else if a = s.enc.olen then matchHeader (matchField len) else (closed s).outByte a := by
  simp only [matchEmitted, setEnc_outByte, outByte_storeOut, closed_olen, closed_dst]

theorem matchEmitted_eq {len src : Nat} {s : State} (hhdr : s.enc.isOpen = true → ∃ h, s.enc.hdr = some h)
    (hnone : s.enc.isOpen = false → s.enc.hdr = none) :
    matchEmitted len src s =
      { s with
        enc := { dst := s.enc.dst + len, isOpen := false, runLen := s.enc.runLen, hdr := none,
                 olen := s.enc.olen + 2 }
        outMem := (matchEmitted len src s).outMem } := by
  rw [matchEmitted, closed_eq hhdr hnone]; rfl

/-- The state after `Finish()`, when END fits. -/
def finished (s : State) : State :=
  completeOperation (s.enc.olen + 1)
    (((closed s).storeOut s.enc.olen Config.terminator).setEnc { (closed s).enc with olen := s.enc.olen + 1 })

theorem finishEncode_go_finished {s : State} (hhdr : s.enc.isOpen = true → ∃ h, s.enc.hdr = some h)
    (hroom : s.enc.olen ≠ s.params.outCap) : finishEncode s = .go (finished s) := finishEncode_go hhdr hroom

@[simp] theorem finished_outLen (s : State) : (finished s).outLen = s.enc.olen + 1 := rfl

@[simp] theorem finished_status (s : State) : (finished s).status = setStatusState .done s.status := by
  simp [finished, (closed_frame s).status]

theorem finished_outByte (s : State) (a : Nat) :
    (finished s).outByte a = if a = s.enc.olen then Config.terminator else (closed s).outByte a := by
  simp only [finished, completeOperation_outByte, setEnc_outByte, outByte_storeOut]

theorem finished_eq {s : State} (hhdr : s.enc.isOpen = true → ∃ h, s.enc.hdr = some h)
    (hnone : s.enc.isOpen = false → s.enc.hdr = none) :
    finished s =
      { s with
        enc := { s.enc with isOpen := false, hdr := none, olen := s.enc.olen + 1 }
        outMem := (finished s).outMem, outLen := s.enc.olen + 1, status := (finished s).status } := by
  rw [finished, closed_eq hhdr hnone]; rfl

/-! ## The operands of a MATCH (30_encoding.md R71) -/

theorem matchHeader_toNat (m : BitVec 7) : (matchHeader m).toNat = 128 + m.toNat := by
  revert m; decide

theorem matchField_toNat {len : Nat} (hlen : len ≤ Config.matchMax) :
    (matchField len).toNat = len - Config.matchMin := by
  rw [matchField, BitVec.toNat_ofNat, Nat.mod_eq_of_lt]
  simp only [Config.matchMax, Config.matchMin] at *
  omega

/-! ## The actions -/

/-- What an action that raises OUTPUT_OVERFLOW answers with (60_exceptions.md R184). -/
theorem raised_overflow {s : State} {x : Flow} {pos : Nat}
    (h : ∃ u, x = .raised (takeError .outputOverflow pos u) ∧ EncoderFrame s u) :
    ∃ t, x = .raised t ∧ statusState t.status = .error ∧ statusCause t.status = 5 ∧ t.errSrc = pos := by
  obtain ⟨u, e, -⟩ := h
  obtain ⟨hstate, hcause, -⟩ := takeError_fields u .outputOverflow pos
  exact ⟨_, e, hstate, hcause, rfl⟩

/-- Settles O29: an append that fits is a store at `E.olen`. -/
theorem appendWritesOneByte : Obligations.AppendWritesOneByte := by
  unfold Obligations.AppendWritesOneByte
  intro v s
  exact ⟨appendByte_raised v, fun hroom => ⟨_, appendByte_go v hroom, rfl, storeOut_outByte_same s s.enc.olen v,
    sameOutputOutside_storeOut s s.enc.olen v⟩⟩

/-- Settles O30: Finalize is a store at the reserved position. -/
theorem finalizePatchesReservedHeader : Obligations.FinalizePatchesReservedHeader := by
  unfold Obligations.FinalizePatchesReservedHeader
  intro h s hhdr
  exact ⟨_, finalizeRun_go hhdr, rfl, storeOut_outByte_same s h (litHeader s.enc.runLen),
    sameOutputOutside_storeOut s h (litHeader s.enc.runLen)⟩

/-- Settles O31: the two clauses are the two branches of SplitIfFull. -/
theorem splitClosesOnlyFullRun : Obligations.SplitClosesOnlyFullRun := by
  unfold Obligations.SplitClosesOnlyFullRun splitIfFull
  refine fun s => ⟨fun hopen hfull => if_pos (by simp [hopen, hfull]), fun hroom => if_neg ?_⟩
  rcases hroom with hopen | hroom
  · simp [hopen]
  · simp [hroom]

/-- Settles O32: `literalEmitted` is the state after EmitLiteral in both cases of `E.open`. -/
theorem emitLiteralAppendsInputByte : Obligations.EmitLiteralAppendsInputByte := by
  unfold Obligations.EmitLiteralAppendsInputByte
  refine fun s => ⟨fun hopen hroom => ?_, fun hopen hroom => ?_, fun hfull => ?_⟩
  · have hgo : emitLiteral s = .go (literalEmitted s) :=
      emitLiteral_go (fun _ => by omega) (by rw [opened_olen_of_closed hopen]; omega)
    rw [hgo, literalEmitted_of_closed hopen]
    refine ⟨_, rfl, rfl, storeOut_outByte_same _ _ _, fun a ha => ?_⟩
    exact (sameOutputOutside_storeOut _ _ _ a (by omega)).trans (sameOutputOutside_storeOut _ _ _ a (by omega))
  · have hgo : emitLiteral s = .go (literalEmitted s) :=
      emitLiteral_go (fun hclosed => nomatch hopen.symm.trans hclosed) (by rw [opened_olen_of_open hopen]; omega)
    rw [hgo, literalEmitted_of_open hopen]
    exact ⟨_, rfl, rfl, storeOut_outByte_same _ _ _, sameOutputOutside_storeOut _ _ _⟩
  · refine raised_overflow (emitLiteral_raised ?_)
    cases hopen : s.enc.isOpen with
    | true => exact .inr ((opened_olen_of_open hopen).trans (hfull.resolve_right fun h => nomatch hopen.symm.trans h.1))
    | false => exact hfull.imp (⟨rfl, ·⟩) fun h => (opened_olen_of_closed hopen).trans h.2

/-- Settles O33: `matchEmitted` is the state after EmitMatch; its two bytes stand past the patched header. -/
theorem emitMatchAppendsBackReference : Obligations.EmitMatchAppendsBackReference := by
  unfold Obligations.EmitMatchAppendsBackReference
  intro len src s hmin hmax hsrc hwindow hopened hnone
  have hhdr : s.enc.isOpen = true → ∃ h, s.enc.hdr = some h := fun hopen => (hopened hopen).imp fun _ => And.left
  refine ⟨fun hroom => ⟨_, emitMatch_go len src hhdr (by omega) (by omega), matchEmitted_eq hhdr hnone, ?_, ?_,
    fun h hopen hh => ?_, fun a ha ha' hpatched => ?_⟩,
    fun hfull => raised_overflow (emitMatch_raised len src hhdr hfull)⟩
  · rw [matchEmitted_outByte, if_neg (by omega), if_pos rfl, matchHeader_toNat, matchField_toNat hmax]
  · rw [matchEmitted_outByte, if_pos rfl, distanceByte_toNat, Int.emod_eq_of_lt (by omega) (by omega)]
  · obtain ⟨h', hh', hlt⟩ := hopened hopen
    obtain rfl : h = h' := Option.some.inj (hh.symm.trans hh')
    rw [matchEmitted_outByte, if_neg (by omega), if_neg (by omega), closed_outByte_header hopen hh, litHeader]
  · rw [matchEmitted_outByte, if_neg ha', if_neg ha, closed_outByte_other hhdr hpatched]

/-- `STATUS.STATE` is bits 1:0 (10_state.md R22); bits 7:2 stay. -/
theorem setStatusState_otherBits (x : RunState) (w : Byte) : setStatusState x w &&& 0xFC#8 = w &&& 0xFC#8 := by
  cases x <;> revert w <;> decide

/-- Settles O34: `finished` is the state after Finish; END stands past the patched header. -/
theorem finishAppendsTerminator : Obligations.FinishAppendsTerminator := by
  unfold Obligations.FinishAppendsTerminator
  intro s hopened hnone
  have hhdr : s.enc.isOpen = true → ∃ h, s.enc.hdr = some h := fun hopen => (hopened hopen).imp fun _ => And.left
  refine ⟨fun hroom => ⟨_, finishEncode_go_finished hhdr (by omega), finished_eq hhdr hnone, by simp, ?_, ?_,
    fun h hopen hh => ?_, fun a ha hpatched => ?_⟩, fun hfull => raised_overflow (finishEncode_raised hhdr hfull)⟩
  · rw [finished_status, setStatusState_otherBits]
  · rw [finished_outByte, if_pos rfl]
  · obtain ⟨h', hh', hlt⟩ := hopened hopen
    obtain rfl : h = h' := Option.some.inj (hh.symm.trans hh')
    rw [finished_outByte, if_neg (by omega), closed_outByte_header hopen hh, litHeader]
  · rw [finished_outByte, if_neg ha, closed_outByte_other hhdr hpatched]

/-! ## An iteration, and a step of a running Encoder (41_encoder.md R121) -/

theorem accepts_iff {p : Config.Params} {isOpen : Bool} {len : Nat} :
    accepts p isOpen len = true ↔ acceptThreshold p isOpen ≤ len := decide_eq_true_iff

theorem encodeIteration_of_accepted {s : State} {src : Nat} (hsrc : (findMatch s).fnd.bestSrc = some src)
    (haccept : acceptThreshold s.params s.enc.isOpen ≤ (findMatch s).fnd.bestLen) :
    encodeIteration s = emitMatch (findMatch s).fnd.bestLen src (findMatch s) := by
  rw [encodeIteration_eq, emitFound.eq_def, findMatch_params, findMatch_enc, if_pos (accepts_iff.2 haccept), hsrc]

theorem encodeIteration_of_rejected {s : State}
    (hreject : (findMatch s).fnd.bestLen < acceptThreshold s.params s.enc.isOpen) :
    encodeIteration s = (splitIfFull (findMatch s)).andThen emitLiteral := by
  rw [encodeIteration_eq, emitFound.eq_def, findMatch_params, findMatch_enc,
    if_neg (accepts_iff.not.2 (Nat.not_le.2 hreject))]

/-- Settles O28: the two clauses are the two answers of Accept, with the threshold that `E.open` selects. -/
theorem iterationAcceptsAtThreshold : Obligations.IterationAcceptsAtThreshold := by
  unfold Obligations.IterationAcceptsAtThreshold
  exact fun _ => ⟨fun _ => encodeIteration_of_accepted, encodeIteration_of_rejected⟩

/-- Settles O14: a waiting host stays, a pass is consumed, and the running Encoder tests `E.dst < n`. -/
theorem busyBlockMovesWhileHostWaits : Obligations.BusyBlockMovesWhileHostWaits := by
  unfold Obligations.BusyBlockMovesWhileHostWaits
  refine fun s hbusy => ⟨fun hhost => ?_, fun rest hhost => ?_, fun rest hhost => step_hostAct hhost nofun,
    fun henc hmore => ?_, fun henc hend => ?_⟩
  · simp [step, machineStep, hhost]
  · simp [step, machineStep, hhost, hostWaits, hbusy]
  · rw [blockStep_encoding henc, encoderStep, if_pos hmore]
  · rw [blockStep_encoding henc, encoderStep, if_neg (Nat.not_lt.2 hend)]

/-- Settles O36: the three outcomes of a running Encoder's step; a state that goes on has `E.dst` within the input. -/
theorem encoderStepAdvancesOrEnds : Obligations.EncoderStepAdvancesOrEnds := by
  unfold Obligations.EncoderStepAdvancesOrEnds
  intro s hinv henc
  rw [blockStep_encoding henc]
  rcases encoderStep_outcome ⟨hinv, henc⟩ with ⟨t, e, ht, hdst, holen⟩ | ⟨t, e, -, hdone, hend⟩ | ⟨u, e, -⟩
  · exact ⟨t, e, .inl ⟨ht.runs, hdst, (encoderStep_inputKept e).inLen ▸ ht.ok.dst, holen⟩⟩
  · exact ⟨t, e, .inr (.inl ⟨hdone, hend⟩)⟩
  · obtain ⟨hstate, hcause, -⟩ := takeError_fields u .outputOverflow s.enc.dst
    exact ⟨_, e, .inr (.inr ⟨hstate, hcause, rfl⟩)⟩

end Sys2Proof.Machine

/-! SUPPORT. A whole ENCODE (41_encoder.md R121): the one state an iteration can go on to, the states a run goes
through, and how it ends. From them the size bound of R131. -/

namespace Sys2Proof.Machine

/-! ## What an iteration goes on to -/

/-- The state an iteration from `s` goes on to when its bytes fit into OUT (R121, R122). -/
inductive Emits (s : State) : State → Prop
  | literal (hreject : (findMatch s).fnd.bestLen < acceptThreshold s.params s.enc.isOpen) :
      Emits s (literalEmitted (splitRun (findMatch s)))
  | backReference {src : Nat} (hsrc : (findMatch s).fnd.bestSrc = some src)
      (haccept : acceptThreshold s.params s.enc.isOpen ≤ (findMatch s).fnd.bestLen) :
      Emits s (matchEmitted (findMatch s).fnd.bestLen src (findMatch s))

/-- The action goes on to `t`, or raises an error, since `t` needs more than `cap` bytes of OUT. -/
def GoesOnIfFits (cap : Nat) (t : State) (x : Flow) : Prop :=
  x = .go t ∨ cap < t.enc.olen ∧ ∃ u, x = .raised u

theorem emitLiteral_goesOnIfFits (s : State) : GoesOnIfFits s.params.outCap (literalEmitted s) (emitLiteral s) := by
  have holen : (literalEmitted s).enc.olen = (opened s).enc.olen + 1 := rfl
  have hle := opened_olen s
  by_cases hfull : (s.enc.isOpen = false ∧ s.enc.olen = s.params.outCap) ∨ (opened s).enc.olen = s.params.outCap
  · obtain ⟨u, e, -⟩ := emitLiteral_raised hfull
    exact .inr ⟨by omega, _, e⟩
  · obtain ⟨h1, h2⟩ := not_or.1 hfull
    exact .inl (emitLiteral_go (fun hopen hcap => h1 ⟨hopen, hcap⟩) h2)

@[simp] theorem matchEmitted_olen (len src : Nat) (s : State) :
    (matchEmitted len src s).enc.olen = s.enc.olen + 2 := by simp [matchEmitted]

@[simp] theorem matchEmitted_dst (len src : Nat) (s : State) :
    (matchEmitted len src s).enc.dst = s.enc.dst + len := by simp [matchEmitted]

@[simp] theorem matchEmitted_isOpen (len src : Nat) (s : State) :
    (matchEmitted len src s).enc.isOpen = false := by simp [matchEmitted]

theorem emitMatch_goesOnIfFits {s : State} (len src : Nat) (hhdr : s.enc.isOpen = true → ∃ h, s.enc.hdr = some h) :
    GoesOnIfFits s.params.outCap (matchEmitted len src s) (emitMatch len src s) := by
  by_cases hfull : s.enc.olen = s.params.outCap ∨ s.enc.olen + 1 = s.params.outCap
  · obtain ⟨u, e, -⟩ := emitMatch_raised len src hhdr hfull
    exact .inr ⟨by rw [matchEmitted_olen]; omega, _, e⟩
  · obtain ⟨h1, h2⟩ := not_or.1 hfull
    exact .inl (emitMatch_go len src hhdr h1 h2)

/-- An iteration goes on to the state it emits, if that fits. -/
theorem encodeIteration_emits {s : State} (h : Encoding s) :
    ∃ t, Emits s t ∧ GoesOnIfFits s.params.outCap t (encodeIteration s) := by
  have hfind := findMatch_encoding h
  rcases Nat.lt_or_ge (findMatch s).fnd.bestLen (acceptThreshold s.params s.enc.isOpen) with hreject | haccept
  · have hcap := (splitRun_frame (findMatch s)).params
    have hfits := emitLiteral_goesOnIfFits (splitRun (findMatch s))
    rw [hcap, findMatch_params] at hfits
    rw [encodeIteration_of_rejected hreject, splitIfFull_go hfind.ok.hdr, Flow.go_andThen]
    exact ⟨_, .literal hreject, hfits⟩
  · obtain ⟨src, hsrc⟩ := findMatch_source (two_le_of_accepts h.inv.params (accepts_iff.2 haccept))
    rw [encodeIteration_of_accepted hsrc haccept]
    exact ⟨_, .backReference hsrc haccept, emitMatch_goesOnIfFits _ src hfind.ok.hdr⟩

theorem emits_of_encodeIteration_go {s t : State} (h : Encoding s) (hgo : encodeIteration s = .go t) : Emits s t := by
  obtain ⟨t', hemits, hfits⟩ := encodeIteration_emits h
  rw [hgo] at hfits
  rcases hfits with e | ⟨-, u, e⟩ <;> cases e
  exact hemits

theorem encodeIteration_go_frame {s t : State} (hgo : encodeIteration s = .go t) : EncoderFrame s t := by
  have hwithin := encodeIteration_within s
  rw [hgo] at hwithin
  exact hwithin

theorem encodeIteration_go_encoding {s t : State} (h : Encoding s) (hmore : s.enc.dst < s.inLen)
    (hgo : encodeIteration s = .go t) : Encoding t ∧ s.enc.dst < t.enc.dst := by
  rcases encodeIteration_advances h hmore with ⟨t', e, ht, hdst, -⟩ | ⟨u, e, -⟩ <;> rw [hgo] at e <;> cases e
  exact ⟨ht, hdst⟩

/-! ## A step of a running Encoder, with what it goes on to -/

/-- Every way a running Encoder can move, and when OUT is too short for it. -/
inductive EncoderTurn (s : State) : State → Prop
  | iterates {t : State} (hmore : s.enc.dst < s.inLen) (hgo : encodeIteration s = .go t) : EncoderTurn s t
  | finishes (hend : s.enc.dst = s.inLen) : EncoderTurn s (finished s)
  | cannotIterate {t u : State} (hmore : s.enc.dst < s.inLen) (hemits : Emits s t)
      (hfull : s.params.outCap < t.enc.olen) : EncoderTurn s (takeError .outputOverflow s.enc.dst u)
  | cannotFinish {u : State} (hend : s.enc.dst = s.inLen) (hfull : s.enc.olen = s.params.outCap) :
      EncoderTurn s (takeError .outputOverflow s.enc.dst u)

theorem encoderStep_turn {s : State} (h : Encoding s) : ∃ t, encoderStep s = .next t ∧ EncoderTurn s t := by
  unfold encoderStep
  split
  next hmore =>
    rcases encodeIteration_advances h hmore with ⟨t, e, -⟩ | ⟨u, e, -⟩
    · exact ⟨t, by rw [e, Flow.go_toOutcome], .iterates hmore e⟩
    · obtain ⟨t, hemits, hgo | ⟨hfull, -⟩⟩ := encodeIteration_emits h
      · cases e.symm.trans hgo
      · exact ⟨_, by rw [e, Flow.raised_toOutcome], .cannotIterate hmore hemits hfull⟩
  next hmore =>
    have hend : s.enc.dst = s.inLen := Nat.le_antisymm h.ok.dst (Nat.le_of_not_lt hmore)
    by_cases hfull : s.enc.olen = s.params.outCap
    · obtain ⟨u, e, -⟩ := finishEncode_raised h.ok.hdr hfull
      exact ⟨_, by rw [e, Flow.raised_toOutcome], .cannotFinish hend hfull⟩
    · exact ⟨_, by rw [finishEncode_go_finished h.ok.hdr hfull, Flow.go_toOutcome], .finishes hend⟩

/-! ## The run -/

theorem Encoding.busy {s : State} (h : Encoding s) : s.busy = true :=
  (busy_iff s).2 ((encoding_iff s).1 h.runs).1

/-- The state in which ENCODE's loop begins. -/
def encodeStarted (s : State) : State := initAgent .encode (startOperation .encode s)

/-- `t` is a state at the head of the loop of the ENCODE that begins in `s`. -/
inductive EncodeReaches (s : State) : State → Prop
  | start : EncodeReaches s (encodeStarted s)
  | iterate {t u : State} (h : EncodeReaches s t) (hmore : t.enc.dst < t.inLen) (hgo : encodeIteration t = .go u) :
      EncodeReaches s u

theorem EncodeReaches.frame {s t : State} (h : EncodeReaches s t) : EncoderFrame (encodeStarted s) t := by
  induction h with
  | start => exact .refl _
  | iterate _ _ hgo ih => exact ih.trans (encodeIteration_go_frame hgo)

theorem EncodeReaches.params {s t : State} (h : EncodeReaches s t) : t.params = s.params := h.frame.params
theorem EncodeReaches.inLen {s t : State} (h : EncodeReaches s t) : t.inLen = s.inLen := h.frame.inLen
theorem EncodeReaches.inByte {s t : State} (h : EncodeReaches s t) : t.inByte = s.inByte := h.frame.inByte

theorem encodeStarted_encoding {s : State} (h : Inv s) (hbusy : s.busy = false) (hlen : s.inLen ≤ s.params.inCap) :
    Encoding (encodeStarted s) where
  inv := inv_of_next (execEncode_inv h hbusy) (execCommand_starts .encode hbusy hlen)
  runs := by simp [encodeStarted, encoding_iff]

theorem EncodeReaches.encoding {s t : State} (hstart : Encoding (encodeStarted s)) (h : EncodeReaches s t) :
    Encoding t := by
  induction h with
  | start => exact hstart
  | iterate _ hmore hgo ih => exact (encodeIteration_go_encoding ih hmore hgo).1

/-- The state that ENCODE's Finish leads to. -/
def EncodeFinishes (s t : State) : Prop :=
  ∃ v, EncodeReaches s v ∧ v.enc.dst = v.inLen ∧ t = finished v

/-- A running ENCODE, or an ended one: in DONE only by Finish. -/
def EncodeRuns (s t : State) : Prop :=
  EncodeReaches s t ∨ t.busy = false ∧ (statusState t.status = .done → EncodeFinishes s t)

theorem finished_busy (v : State) : (finished v).busy = false := completeOperation_busy _ _

/-- Each turn of the Encoder stays in the run. -/
theorem EncoderTurn.encodeRuns {s t u : State} (h : EncoderTurn t u) (ht : EncodeReaches s t) : EncodeRuns s u := by
  cases h with
  | iterates hmore hgo => exact .inl (ht.iterate hmore hgo)
  | finishes hend => exact .inr ⟨finished_busy t, fun _ => ⟨t, ht, hend, rfl⟩⟩
  | cannotIterate | cannotFinish => exact .inr ⟨takeError_busy _ _ _, fun hdone => by simp at hdone⟩

theorem EncodeRuns.blockStep {s t u : State} (hstart : Encoding (encodeStarted s)) (h : EncodeRuns s t)
    (hstep : blockStep t = .next u) : EncodeRuns s u := by
  rcases h with ht | ⟨hbusy, hdone⟩
  · have henc := ht.encoding hstart
    obtain ⟨u', e, hturn⟩ := encoderStep_turn henc
    rw [blockStep_encoding henc.runs, e] at hstep
    cases hstep
    exact hturn.encodeRuns ht
  · rw [blockStep_not_busy hbusy] at hstep
    cases hstep
    exact .inr ⟨hbusy, hdone⟩

/-- An ENCODE that completes was started, went through its loop, and ended by Finish. -/
theorem encode_completes_cases {s t : State} (h : Inv s) (hcompletes : Completes .cmdEncode s t) :
    s.busy = false ∧ s.inLen ≤ s.params.inCap ∧ EncodeFinishes s t := by
  obtain ⟨u, k, hexec, hrun, hdone⟩ := hcompletes
  rw [exec_cmdEncode] at hexec
  have hbusy := (execCommand_cases hexec).1
  rcases Nat.lt_or_ge s.params.inCap s.inLen with hlong | hlen
  · rw [execCommand_tooLong .encode hbusy hlong] at hexec
    cases hexec
    rw [runBlock_not_busy (takeError_busy _ _ _)] at hrun
    cases hrun
    simp at hdone
  · rw [execCommand_starts .encode hbusy hlen] at hexec
    cases hexec
    refine ⟨hbusy, hlen, ?_⟩
    have hruns : EncodeRuns s t :=
      runBlock_keeps (fun _ _ => EncodeRuns.blockStep (encodeStarted_encoding h hbusy hlen)) (.inl .start) hrun
    rcases hruns with ht | ⟨-, hfin⟩
    · exact absurd hdone (not_done_of_busy (ht.encoding (encodeStarted_encoding h hbusy hlen)).busy)
    · exact hfin hdone

section
variable {s : State} (hstart : Encoding (encodeStarted s))
  (hiterate : ∀ t u, EncodeReaches s t → t.enc.dst < t.inLen → Emits t u → u.enc.olen ≤ s.params.outCap)
  (hfinish : ∀ t, EncodeReaches s t → t.enc.olen < s.params.outCap)
include hstart hiterate hfinish

/-- When OUT has room for every turn, each leaves less input or is Finish. -/
theorem EncodeReaches.progresses {t : State} (ht : EncodeReaches s t) :
    ∃ u, Machine.blockStep t = .next u ∧ (EncodeReaches s u ∨ statusState u.status = .done) ∧
      (u.busy = true → u.inLen - u.enc.dst < t.inLen - t.enc.dst) := by
  have henc := ht.encoding hstart
  obtain ⟨u, e, hturn⟩ := encoderStep_turn henc
  rw [← blockStep_encoding henc.runs] at e
  refine ⟨u, e, ?_⟩
  cases hturn with
  | iterates hmore hgo =>
    have hdst := (encodeIteration_go_encoding henc hmore hgo).2
    have hin := (encodeIteration_go_frame hgo).inLen
    exact ⟨.inl (ht.iterate hmore hgo), fun _ => by omega⟩
  | finishes hend => exact ⟨.inr (by simp), fun hb => nomatch (finished_busy t).symm.trans hb⟩
  | cannotIterate hmore hemits hfull =>
    have hfits := hiterate t _ ht hmore hemits
    rw [ht.params] at hfull
    omega
  | cannotFinish hend hfull =>
    have hroom := hfinish t ht
    rw [ht.params] at hfull
    omega

/-- An ENCODE whose turns all fit into OUT completes. -/
theorem encode_completes (hbusy : s.busy = false) (hlen : s.inLen ≤ s.params.inCap) :
    ∃ t, Completes .cmdEncode s t := by
  obtain ⟨k, t, -, hrun, hend, hidle⟩ := runBlock_ends
    (P := fun t => EncodeReaches s t ∨ statusState t.status = .done) (fun t => t.inLen - t.enc.dst)
    (fun t ht hrunning => (ht.resolve_right (not_done_of_busy hrunning)).progresses hstart hiterate hfinish)
    (.inl .start)
  refine ⟨t, _, k, execCommand_starts .encode hbusy hlen, hrun, hend.resolve_left fun ht => ?_⟩
  exact nomatch (ht.encoding hstart).busy.symm.trans hidle

end

/-! ## The size of the output (41_encoder.md R131) -/

/-- Why the bound holds. With no run open OUT has at most one byte more than the input for each 127 input bytes; the
header of an open run is paid for by the run's split, after 127 bytes, or by the match that ends it, of length 3 or more. -/
structure Compact (s : State) : Prop where
  closed : s.enc.isOpen = false → 127 * s.enc.olen ≤ 128 * s.enc.dst
  opened : s.enc.isOpen = true → 1 ≤ s.enc.runLen ∧ 127 * s.enc.olen + s.enc.runLen ≤ 128 * s.enc.dst + 127

theorem Compact.olen_le {s : State} (h : Compact s) : s.enc.olen ≤ s.enc.dst + (s.enc.dst + 126) / 127 := by
  cases hopen : s.enc.isOpen with
  | false => have := h.closed hopen; omega
  | true => have := h.opened hopen; omega

theorem Compact.splitRun {s : State} (h : Compact s) : Compact (splitRun s) := by
  unfold Machine.splitRun
  split
  next hfull =>
    rw [Bool.and_eq_true, decide_eq_true_eq] at hfull
    obtain ⟨hopen, hfull⟩ := hfull
    have := h.opened hopen
    simp only [Config.litMax] at hfull
    exact ⟨fun _ => by rw [closed_olen, closed_dst]; omega, fun hc => by simp at hc⟩
  next => exact h

theorem Compact.literalEmitted {s : State} (h : Compact s) : Compact (literalEmitted s) := by
  cases hopen : s.enc.isOpen with
  | false =>
    have := h.closed hopen
    rw [literalEmitted_of_closed hopen]
    exact ⟨nofun, fun _ => ⟨Nat.le_refl _, by show 127 * (s.enc.olen + 2) + 1 ≤ 128 * (s.enc.dst + 1) + 127; omega⟩⟩
  | true =>
    have := h.opened hopen
    rw [literalEmitted_of_open hopen]
    refine ⟨fun hc => (nomatch hopen.symm.trans hc), fun _ => ?_⟩
    simp only [setEnc_enc]
    omega

theorem Compact.matchEmitted {s : State} {len : Nat} (src : Nat) (h : Compact s) (hclosed : 2 ≤ len)
    (hopened : s.enc.isOpen = true → 3 ≤ len) : Compact (matchEmitted len src s) := by
  refine ⟨fun _ => ?_, fun hc => by simp at hc⟩
  rw [matchEmitted_olen, matchEmitted_dst]
  cases hopen : s.enc.isOpen with
  | false => have := h.closed hopen; omega
  | true => have := h.opened hopen; have := hopened hopen; omega

theorem Compact.findMatch {s : State} (h : Compact s) : Compact (findMatch s) :=
  ⟨by simpa using h.closed, by simpa using h.opened⟩

theorem Emits.compact {s t : State} (hemits : Emits s t) (hp : s.params.wf) (hopen : 3 ≤ s.params.acceptMinOpen)
    (h : Compact s) : Compact t := by
  cases hemits with
  | literal => exact h.findMatch.splitRun.literalEmitted
  | backReference hsrc haccept =>
    refine h.findMatch.matchEmitted _ (two_le_of_accepts hp (accepts_iff.2 haccept)) fun ho => ?_
    rw [findMatch_enc] at ho
    rw [ho] at haccept
    exact hopen.trans haccept

/-- What an iteration emits stands for input bytes only (40_match_finder.md R107). -/
theorem Emits.dst_le {s t : State} (hemits : Emits s t) (hmore : s.enc.dst < s.inLen) : t.enc.dst ≤ s.inLen := by
  cases hemits with
  | literal => simpa [literalEmitted] using hmore
  | backReference =>
    have := findMatch_bestLen_lt s
    rw [matchEmitted_dst, findMatch_enc]
    omega

theorem EncodeReaches.compact {s t : State} (hstart : Encoding (encodeStarted s)) (hopen : 3 ≤ s.params.acceptMinOpen)
    (h : EncodeReaches s t) : Compact t := by
  induction h with
  | start => exact ⟨fun _ => Nat.le_refl _, nofun⟩
  | iterate h hmore hgo ih =>
    have henc := h.encoding hstart
    exact (emits_of_encodeIteration_go henc hgo).compact henc.inv.params (by rwa [h.params]) ih

/-- Settles O46: every state of the run is `Compact`, and so is the state that an iteration would go on to. -/
theorem encoderOutputIsBounded : Obligations.EncoderOutputIsBounded := by
  unfold Obligations.EncoderOutputIsBounded
  refine fun s h hbusy hopen => ⟨fun t hcompletes => ?_, fun hlen hcap => ?_⟩
  · obtain ⟨-, hlen, v, hv, hend, rfl⟩ := encode_completes_cases h hcompletes
    have hsize := (hv.compact (encodeStarted_encoding h hbusy hlen) hopen).olen_le
    rw [hend, hv.inLen] at hsize
    exact Nat.succ_le_succ hsize
  · have hstart := encodeStarted_encoding h hbusy hlen
    refine encode_completes hstart (fun t u ht hmore hemits => ?_) (fun t ht => ?_) hbusy hlen
    · have henc := ht.encoding hstart
      have hsize := (hemits.compact henc.inv.params (by rwa [ht.params]) (ht.compact hstart hopen)).olen_le
      have hdst := hemits.dst_le hmore
      rw [ht.inLen] at hdst
      omega
    · have hsize := (ht.compact hstart hopen).olen_le
      have hdst := (ht.encoding hstart).ok.dst
      rw [ht.inLen] at hdst
      omega

end Sys2Proof.Machine

/-! SUPPORT. Streams (30_encoding.md R70): the bytes of a stretch of memory, reading a whole stream back, and what
bytes tokens stand for. -/

namespace Sys2Proof

/-! ## Reading a stream -/

theorem encode_length_pos (i : Instr) : 1 ≤ (encode i).length := by cases i <;> simp [encode]

/-- A stream has a byte at least for each token. -/
theorem length_le_flatMap_encode (toks : List Instr) : toks.length ≤ (toks.flatMap encode).length := by
  induction toks with
  | nil => exact Nat.le_refl 0
  | cons i toks ih =>
    have := encode_length_pos i
    rw [List.flatMap_cons, List.length_append, List.length_cons]
    omega

theorem decodeStream_terminator (fuel : Nat) (rest : List Byte) :
    decodeStream (fuel + 1) (Config.terminator :: rest) = some ([.tokEnd], rest) := by
  simp [decodeStream, decodeToken_terminator]

theorem decodeStream_token {fuel : Nat} {bytes rest : List Byte} {i : Instr} (hread : ReadsToken bytes i rest)
    (hi : i ≠ .tokEnd) :
    decodeStream (fuel + 1) bytes = (decodeStream fuel rest).map fun p => (i :: p.1, p.2) := by
  rw [decodeStream, decodeToken_eq_instr_iff.2 hread]
  cases i with
  | tokEnd => exact absurd rfl hi
  | tokLit | tokMatch | cmdEncode | cmdDecode => simp only; cases decodeStream fuel rest <;> rfl

/-- A token that stands in a stream before its END. -/
structure InStream (i : Instr) : Prop where
  wellFormed : i.wellFormed = true
  isToken : i.isToken = true
  notEnd : i ≠ .tokEnd

theorem decodeStream_flatMap_encode {toks : List Instr} (htoks : ∀ i ∈ toks, InStream i) {fuel : Nat}
    (hfuel : toks.length < fuel) (rest : List Byte) :
    decodeStream fuel (toks.flatMap encode ++ Config.terminator :: rest) = some (toks ++ [.tokEnd], rest) := by
  obtain ⟨fuel, rfl⟩ : ∃ k, fuel = k + 1 := ⟨fuel - 1, by omega⟩
  induction toks generalizing fuel with
  | nil => exact decodeStream_terminator fuel rest
  | cons i toks ih =>
    rw [List.length_cons] at hfuel
    obtain ⟨fuel, rfl⟩ : ∃ k, fuel = k + 1 := ⟨fuel - 1, by omega⟩
    obtain ⟨hwf, htok, hne⟩ := htoks i List.mem_cons_self
    rw [List.flatMap_cons, List.append_assoc, decodeStream_token (readsToken_encode hwf htok _) hne,
      ih (fun j hj => htoks j (List.mem_cons_of_mem _ hj)) fuel (by omega)]
    rfl

end Sys2Proof

namespace Sys2Proof.Machine

/-! ## Stretches of memory -/

/-- The `count` bytes from index `a` on. -/
def bytesFrom (byteAt : Nat → Byte) (a count : Nat) : List Byte := (List.range count).map fun k => byteAt (a + k)

@[simp] theorem bytesFrom_length (byteAt : Nat → Byte) (a count : Nat) : (bytesFrom byteAt a count).length = count := by
  simp [bytesFrom]

@[simp] theorem bytesFrom_zero (byteAt : Nat → Byte) (a : Nat) : bytesFrom byteAt a 0 = [] := rfl

theorem bytesFrom_succ (byteAt : Nat → Byte) (a count : Nat) :
    bytesFrom byteAt a (count + 1) = bytesFrom byteAt a count ++ [byteAt (a + count)] := by
  simp [bytesFrom, List.range_succ]

theorem bytesFrom_add (byteAt : Nat → Byte) (a m n : Nat) :
    bytesFrom byteAt a (m + n) = bytesFrom byteAt a m ++ bytesFrom byteAt (a + m) n := by
  simp [bytesFrom, List.range_add, Nat.add_assoc]

theorem bytesFrom_congr {f g : Nat → Byte} {a b count : Nat} (h : ∀ k, k < count → f (a + k) = g (b + k)) :
    bytesFrom f a count = bytesFrom g b count :=
  List.map_congr_left fun k hk => h k (List.mem_range.1 hk)

theorem bytesFrom_getD (byteAt : Nat → Byte) (a : Nat) {count k : Nat} (hk : k < count) (v : Byte) :
    (bytesFrom byteAt a count).getD k v = byteAt (a + k) := by
  rw [List.getD_eq_getElem _ _ (by simpa using hk)]
  simp [bytesFrom]

theorem input_eq_bytesFrom (s : State) : s.input = bytesFrom s.inByte 0 s.inLen := by
  simp [State.input, bytesFrom]

theorem output_eq_bytesFrom (s : State) : s.output = bytesFrom s.outByte 0 s.outLen := by
  simp [State.output, bytesFrom]

theorem fetchBytes_eq_take (s : State) :
    fetchBytes s = (bytesFrom s.inByte s.dec.src (s.inLen - s.dec.src)).take Config.maxTokenBytes := by
  rw [fetchBytes, bytesFrom, ← List.map_take, List.take_range, List.range'_eq_map_range, List.map_map, Nat.min_comm]
  rfl

/-! ## What tokens stand for (30_encoding.md R79, 42_decoder.md R153, R155) -/

/-- The token `i`, read where `d` bytes are output, stands for the bytes of `byteAt` from `d` up to `e`; a MATCH is
shorter than `limit` and points into the window. -/
inductive TokenYields (byteAt : Nat → Byte) (limit d : Nat) : Instr → Nat → Prop
  | literal {count : Nat} (hmin : 1 ≤ count) (hmax : count ≤ Config.litMax) :
      TokenYields byteAt limit d (.tokLit (bytesFrom byteAt d count)) (d + count)
  | backReference {src len : Nat} (hsrc : src < d) (hwindow : d ≤ src + Config.window)
      (hmin : Config.matchMin ≤ len) (hmax : len ≤ Config.matchMax) (hlimit : len < limit)
      (hequal : ∀ i, i < len → byteAt (src + i) = byteAt (d + i)) :
      TokenYields byteAt limit d (.tokMatch (matchField len) (distanceByte src d)) (d + len)

/-- The tokens `toks`, read from where `d` bytes are output, stand for the bytes from `d` up to `e`. -/
inductive TokensYield (byteAt : Nat → Byte) (limit : Nat) : Nat → List Instr → Nat → Prop
  | nil {d : Nat} : TokensYield byteAt limit d [] d
  | cons {d e f : Nat} {i : Instr} {toks : List Instr} (hhead : TokenYields byteAt limit d i e)
      (htail : TokensYield byteAt limit e toks f) : TokensYield byteAt limit d (i :: toks) f

theorem TokensYield.snoc {byteAt : Nat → Byte} {limit d e f : Nat} {toks : List Instr} {i : Instr}
    (h : TokensYield byteAt limit d toks e) (hlast : TokenYields byteAt limit e i f) :
    TokensYield byteAt limit d (toks ++ [i]) f := by
  induction h with
  | nil => exact .cons hlast .nil
  | cons hhead _ ih => exact .cons hhead (ih hlast)

theorem TokenYields.inStream {byteAt : Nat → Byte} {limit d e : Nat} {i : Instr}
    (h : TokenYields byteAt limit d i e) : InStream i := by
  cases h with
  | literal hmin hmax => exact ⟨by simp [Instr.wellFormed, hmin, hmax], rfl, nofun⟩
  | backReference => exact ⟨rfl, rfl, nofun⟩

theorem matchLength_matchField {len : Nat} (hmin : Config.matchMin ≤ len) (hmax : len ≤ Config.matchMax) :
    matchLength (matchField len) = len := by
  rw [matchLength, matchField_toNat hmax, Nat.sub_add_cancel hmin]

theorem TokenYields.matchLength_lt {byteAt : Nat → Byte} {limit d e : Nat} {i : Instr}
    (h : TokenYields byteAt limit d i e) {m : BitVec 7} {b : Byte} (hi : i = .tokMatch m b) :
    matchLength m < limit := by
  cases h with
  | literal => cases hi
  | backReference _ _ hmin hmax hlimit => cases hi; rwa [matchLength_matchField hmin hmax]

theorem TokensYield.forall_mem {byteAt : Nat → Byte} {limit d f : Nat} {toks : List Instr} {P : Instr → Prop}
    (h : TokensYield byteAt limit d toks f) (hP : ∀ {d e i}, TokenYields byteAt limit d i e → P i) :
    ∀ i ∈ toks, P i := by
  induction h with
  | nil => nofun
  | cons hhead _ ih => exact List.forall_mem_cons.2 ⟨hP hhead, ih⟩

theorem TokenYields.le {byteAt : Nat → Byte} {limit d e : Nat} {i : Instr} (h : TokenYields byteAt limit d i e) :
    d ≤ e := by
  cases h <;> exact Nat.le_add_right _ _

theorem TokensYield.le {byteAt : Nat → Byte} {limit d f : Nat} {toks : List Instr}
    (h : TokensYield byteAt limit d toks f) : d ≤ f := by
  induction h with
  | nil => exact Nat.le_refl _
  | cons hhead _ ih => exact hhead.le.trans ih

end Sys2Proof.Machine

/-! SUPPORT. What ENCODE's output is (41_encoder.md R130): at each head of its loop OUT holds the encoding of tokens
that stand for the input before `E.dst`, the last of them perhaps an open run whose header is not patched yet. -/

namespace Sys2Proof.Machine

/-- OUT holds the encoding of `toks`, which stand for the input before `E.dst`. -/
structure Encoded (s : State) (toks : List Instr) : Prop where
  yields : TokensYield s.inByte s.params.matchLimit 0 toks s.enc.dst
  output : bytesFrom s.outByte 0 s.enc.olen = toks.flatMap encode

/-- OUT holds the encoding of `toks` and, when a run is open, its reserved header and its bytes after that. -/
inductive Progress (s : State) (toks : List Instr) : Prop
  | noRun (hopen : s.enc.isOpen = false) (hencoded : Encoded s toks)
  | inRun {h start : Nat} (hopen : s.enc.isOpen = true) (hhdr : s.enc.hdr = some h)
      (holen : h + 1 + s.enc.runLen = s.enc.olen) (hdst : start + s.enc.runLen = s.enc.dst)
      (hyields : TokensYield s.inByte s.params.matchLimit 0 toks start)
      (houtput : bytesFrom s.outByte 0 h = toks.flatMap encode)
      (hrun : bytesFrom s.outByte (h + 1) s.enc.runLen = bytesFrom s.inByte start s.enc.runLen)

theorem closed_inByte (s : State) : (closed s).inByte = s.inByte := (closed_frame s).inByte

/-- Closing a run makes it a LIT, the last token so far. -/
theorem Progress.close {s : State} {toks : List Instr} (h : Progress s toks) (hok : EncoderOk s) :
    ∃ toks', Encoded (closed s) toks' := by
  cases h with
  | noRun hopen hencoded => rw [closed_of_closed hopen]; exact ⟨toks, hencoded⟩
  | @inRun h start hopen hhdr holen hdst hyields houtput hrun =>
    obtain ⟨hmin, hmax, -⟩ := hok.opened hopen
    have hother : ∀ a, a ≠ h → (closed s).outByte a = s.outByte a := fun a ha =>
      closed_outByte_other (fun _ => ⟨h, hhdr⟩) fun hpatched => ha (Option.some.inj (hpatched.2.symm.trans hhdr))
    refine ⟨toks ++ [.tokLit (bytesFrom s.inByte start s.enc.runLen)], ?_, ?_⟩
    · rw [closed_inByte, closed_params, closed_dst, ← hdst]
      exact hyields.snoc (.literal hmin hmax)
    · rw [closed_olen, ← holen, bytesFrom_add, bytesFrom_succ, Nat.zero_add, Nat.zero_add,
        bytesFrom_congr (g := s.outByte) (b := 0) fun k hk => hother (0 + k) (by omega),
        bytesFrom_congr (g := s.outByte) (b := h + 1) fun k hk => hother (h + 1 + k) (by omega),
        closed_outByte_header hopen hhdr, houtput, hrun]
      simp [encode]

/-- A literal begins a run or becomes the last byte of the open one. -/
theorem Progress.literalEmitted {s : State} {toks : List Instr} (h : Progress s toks) :
    Progress (literalEmitted s) toks := by
  cases h with
  | noRun hopen hencoded =>
    rw [literalEmitted_of_closed hopen]
    refine .inRun rfl rfl rfl rfl hencoded.yields ?_ ?_
    · rw [← hencoded.output]
      refine bytesFrom_congr fun k hk => ?_
      exact (sameOutputOutside_storeOut _ _ _ _ (by omega)).trans (sameOutputOutside_storeOut _ _ _ _ (by omega))
    · exact congrArg (fun v => [v]) (storeOut_outByte_same _ _ _)
  | @inRun h start hopen hhdr holen hdst hyields houtput hrun =>
    rw [literalEmitted_of_open hopen]
    have hother : ∀ a, a < s.enc.olen → (s.storeOut s.enc.olen (s.inByte s.enc.dst)).outByte a = s.outByte a :=
      fun a ha => sameOutputOutside_storeOut s _ _ a (.inl ha)
    refine .inRun hopen hhdr (by simp only [setEnc_enc]; omega) (by simp only [setEnc_enc]; omega) hyields ?_ ?_
    · rw [← houtput]
      exact bytesFrom_congr fun k hk => hother (0 + k) (by omega)
    · simp only [setEnc_enc, setEnc_outByte, setEnc_inByte, storeOut_inByte, bytesFrom_succ]
      rw [holen, hdst, storeOut_outByte_same, ← hrun]
      congr 1
      exact bytesFrom_congr fun k hk => hother (h + 1 + k) (by omega)

theorem Encoded.matchEmitted {s : State} {toks : List Instr} {len src : Nat} (h : Encoded (closed s) toks)
    (hyields : TokenYields s.inByte s.params.matchLimit s.enc.dst
      (.tokMatch (matchField len) (distanceByte src s.enc.dst)) (s.enc.dst + len)) :
    Encoded (matchEmitted len src s) (toks ++ [.tokMatch (matchField len) (distanceByte src s.enc.dst)]) := by
  obtain ⟨htoks, houtput⟩ := h
  rw [closed_inByte, closed_params, closed_dst] at htoks
  have hframe := matchEmitted_frame len src s
  constructor
  · rw [hframe.inByte, hframe.params, matchEmitted_dst]
    exact htoks.snoc hyields
  · have hother : ∀ k, k < s.enc.olen →
        (Machine.matchEmitted len src s).outByte (0 + k) = (closed s).outByte (0 + k) := fun k hk => by
      rw [matchEmitted_outByte, if_neg (by omega), if_neg (by omega)]
    rw [closed_olen] at houtput
    rw [matchEmitted_olen, bytesFrom_succ, bytesFrom_succ, bytesFrom_congr hother, houtput, matchEmitted_outByte,
      matchEmitted_outByte]
    simp [encode]

/-- The match that FIND reports stands for the bytes it is to encode (40_match_finder.md R102, R107). -/
theorem findMatch_yields {s : State} {src : Nat} (hp : s.params.wf) (hsrc : (findMatch s).fnd.bestSrc = some src) :
    TokenYields s.inByte s.params.matchLimit s.enc.dst
      (.tokMatch (matchField (findMatch s).fnd.bestLen) (distanceByte src s.enc.dst))
      (s.enc.dst + (findMatch s).fnd.bestLen) := by
  obtain ⟨hlow, hhigh, -⟩ := hp
  have hlt := findMatch_bestLen_lt s
  rcases findMatch_result s with ⟨c, hc, hbest⟩ | ⟨hnone, -⟩
  · obtain rfl : src = c := Option.some.inj (hsrc.symm.trans hc)
    have hmin := hbest.atLeastTwo
    obtain ⟨hwindow, hbefore⟩ := mem_findWindow.1 hbest.mem
    obtain ⟨-, hequal, -⟩ :=
      candidateLength_spec s.inByte s.enc.dst (min (s.inLen - s.enc.dst) s.params.matchLimit) src
    rw [hbest.length] at hequal
    exact .backReference hbefore (by omega) hmin (by simp only [Config.matchMax] at *; omega) (by omega) hequal
  · exact nomatch hnone.symm.trans hsrc

theorem Progress.findMatch {s : State} {toks : List Instr} (h : Progress s toks) : Progress (findMatch s) toks := by
  rw [findMatch_frame]
  cases h with
  | noRun hopen hencoded => exact .noRun hopen ⟨hencoded.yields, hencoded.output⟩
  | inRun hopen hhdr holen hdst hyields houtput hrun => exact .inRun hopen hhdr holen hdst hyields houtput hrun

theorem Progress.splitRun {s : State} {toks : List Instr} (h : Progress s toks) (hok : EncoderOk s) :
    ∃ toks', Progress (splitRun s) toks' := by
  unfold Machine.splitRun
  split
  · exact (h.close hok).imp fun _ => .noRun (closed_isOpen s)
  · exact ⟨toks, h⟩

theorem Emits.progress {s t : State} {toks : List Instr} (hemits : Emits s t) (henc : Encoding s)
    (h : Progress s toks) : ∃ toks', Progress t toks' := by
  have hok := (findMatch_encoding henc).ok
  cases hemits with
  | literal => exact (h.findMatch.splitRun hok).imp fun _ => Progress.literalEmitted
  | backReference hsrc =>
    obtain ⟨toks', hclosed⟩ := h.findMatch.close hok
    exact ⟨_, .noRun (matchEmitted_isOpen _ _ _) (hclosed.matchEmitted (findMatch_yields henc.inv.params hsrc))⟩

theorem EncodeReaches.progress {s t : State} (hstart : Encoding (encodeStarted s)) (h : EncodeReaches s t) :
    ∃ toks, Progress t toks := by
  induction h with
  | start => exact ⟨[], .noRun rfl ⟨.nil, rfl⟩⟩
  | iterate h hmore hgo ih =>
    obtain ⟨toks, ih⟩ := ih
    have henc := h.encoding hstart
    exact (emits_of_encodeIteration_go henc hgo).progress henc ih

/-- The output of an ENCODE that completes: the encoding of tokens that stand for the input, and END. -/
theorem encode_output {s t : State} (h : Inv s) (hcompletes : Completes .cmdEncode s t) :
    ∃ toks, TokensYield s.inByte s.params.matchLimit 0 toks s.inLen ∧
      t.output = toks.flatMap encode ++ [Config.terminator] := by
  obtain ⟨hbusy, hlen, v, hv, hend, rfl⟩ := encode_completes_cases h hcompletes
  have hstart := encodeStarted_encoding h hbusy hlen
  obtain ⟨toks, hprogress⟩ := hv.progress hstart
  obtain ⟨toks', hyields, houtput⟩ := hprogress.close (hv.encoding hstart).ok
  refine ⟨toks', ?_, ?_⟩
  · rwa [closed_inByte, closed_params, closed_dst, hend, hv.inByte, hv.params, hv.inLen] at hyields
  · have hother : ∀ k, k < v.enc.olen → (finished v).outByte (0 + k) = (closed v).outByte (0 + k) := fun k hk => by
      rw [finished_outByte, if_neg (by omega)]
    rw [closed_olen] at houtput
    rw [output_eq_bytesFrom, finished_outLen, bytesFrom_succ, bytesFrom_congr hother, houtput, finished_outByte,
      if_pos (Nat.zero_add _)]

/-- Settles O45: the output is the encoding of tokens that a stream may hold, and END, which reads back as it is. -/
theorem encoderOutputIsStream : Obligations.EncoderOutputIsStream := by
  unfold Obligations.EncoderOutputIsStream
  intro s t h _ hcompletes
  obtain ⟨toks, hyields, houtput⟩ := encode_output h hcompletes
  have hlength : (toks.flatMap encode).length + 1 = t.outLen := by
    simpa [output_eq_bytesFrom] using (congrArg List.length houtput).symm
  have hfuel : toks.length < t.outLen + 1 := by
    have := length_le_flatMap_encode toks
    omega
  refine ⟨toks ++ [.tokEnd], ?_, fun m d hmem => ?_⟩
  · rw [houtput]
    exact decodeStream_flatMap_encode (hyields.forall_mem TokenYields.inStream) hfuel []
  · have hmem : .tokMatch m d ∈ toks := by simpa using hmem
    exact hyields.forall_mem (P := fun i => ∀ m b, i = .tokMatch m b → matchLength m < s.params.matchLimit)
      (fun hyield _ _ => hyield.matchLength_lt) _ hmem m d rfl

end Sys2Proof.Machine

/-! SUPPORT. DECODE of a stream whose tokens stand for known bytes (42_decoder.md R151 to R155): each token appends the
bytes it stands for, so DECODE completes with them. With `encode_output` this is the round trip of 41_encoder.md R132. -/

namespace Sys2Proof.Machine

/-! ## One token -/

theorem execLit_copied {payload : List Byte} {s : State} (hin : s.dec.src + payload.length < s.inLen)
    (hout : s.dec.dst + payload.length ≤ s.params.outCap) :
    execLit payload s = .next (literalCopied payload s) := by
  rw [execLit, if_neg (by omega), if_neg (by omega)]; rfl

theorem execMatch_copied {m : BitVec 7} {b : Byte} {s : State} (hin : s.dec.src + 1 < s.inLen)
    (hoff : 0 ≤ matchOffset s.dec.dst b) (hout : s.dec.dst + matchLength m ≤ s.params.outCap) :
    execMatch m b s = .next (matchCopied m b s) := by
  simp only [execMatch]
  rw [if_neg (by omega), if_neg (by omega), if_neg (by omega)]; rfl

/-- MATCH's copy continues the bytes it reads: each index it reads is before the one it writes (R155). -/
theorem matchCopied_continues {byteAt : Nat → Byte} {m : BitVec 7} {b : Byte} {s : State} {src : Nat}
    (hoff : matchOffset s.dec.dst b = src) (hsrc : src < s.dec.dst)
    (hequal : ∀ i, i < matchLength m → byteAt (src + i) = byteAt (s.dec.dst + i))
    (hout : ∀ a, a < s.dec.dst → s.outByte a = byteAt a) (a : Nat) (ha : a < s.dec.dst + matchLength m) :
    (matchCopied m b s).outByte a = byteAt a := by
  induction a using Nat.strongRecOn with
  | ind a ih =>
    rcases Nat.lt_or_ge a s.dec.dst with hbefore | hcopied
    · rw [matchCopied_outside m b s a (.inl hbefore), hout a hbefore]
    · obtain ⟨i, rfl⟩ := Nat.exists_eq_add_of_le hcopied
      rw [matchCopied_inside m b s hoff (by omega), ih (src + i) (by omega) (by omega), hequal i (by omega)]

/-- `t` has read the bytes of `i` and output the bytes of `byteAt` up to `e`, and changed nothing but `D.*` and OUT. -/
structure Appended (byteAt : Nat → Byte) (i : Instr) (e : Nat) (s t : State) : Prop where
  frame : DecoderFrame s t
  src : t.dec.src = s.dec.src + (encode i).length
  dst : t.dec.dst = e
  output : ∀ a, a < e → t.outByte a = byteAt a

/-- A token appends what it stands for, when its bytes are there and OUT has room. -/
theorem TokenYields.exec_appends {byteAt : Nat → Byte} {limit e : Nat} {i : Instr} {s : State}
    (h : TokenYields byteAt limit s.dec.dst i e) (hin : s.dec.src + (encode i).length ≤ s.inLen)
    (hroom : e ≤ s.params.outCap) (hout : ∀ a, a < s.dec.dst → s.outByte a = byteAt a) :
    ∃ t, exec i s = .next t ∧ Appended byteAt i e s t := by
  cases h with
  | @literal count hmin hmax =>
    rw [encode, List.length_cons, bytesFrom_length] at hin
    refine ⟨_, execLit_copied (by rw [bytesFrom_length]; omega) (by rwa [bytesFrom_length]),
      literalCopied_frame _ s, ?_, ?_, fun a ha => ?_⟩
    · simp only [literalCopied_dec, encode, List.length_cons, bytesFrom_length]; omega
    · rw [literalCopied_dec, bytesFrom_length]
    · rw [literalCopied_outByte, bytesFrom_length]
      split
      · rw [bytesFrom_getD _ _ (by omega), Nat.add_sub_cancel' (by omega)]
      · exact hout a (by omega)
  | @backReference src len hsrc hwindow hmin hmax hlimit hequal =>
    have hlen := matchLength_matchField hmin hmax
    have hoff := (distanceByteLeadsBackToSource src s.dec.dst hsrc hwindow).2
    have hin : s.dec.src + 2 ≤ s.inLen := hin
    refine ⟨_, execMatch_copied (by omega) (by omega) (by rwa [hlen]), matchCopied_frame _ _ s, ?_, ?_, fun a ha => ?_⟩
    · rw [matchCopied_dec]; rfl
    · rw [matchCopied_dec, hlen]
    · exact matchCopied_continues hoff hsrc (by rwa [hlen]) hout a (by rwa [hlen])

/-! ## The run -/

/-- A running DECODE that has output the bytes of `byteAt` so far and has the encoding of `toks`, which stand for the
others up to `n`, and END left to read. -/
structure Decodes (byteAt : Nat → Byte) (limit n : Nat) (toks : List Instr) (s : State) : Prop where
  runs : s.decoding = true
  bytes : bytesFrom s.inByte s.dec.src (s.inLen - s.dec.src) = toks.flatMap encode ++ [Config.terminator]
  yields : TokensYield byteAt limit s.dec.dst toks n
  room : n ≤ s.params.outCap
  output : ∀ a, a < s.dec.dst → s.outByte a = byteAt a

/-- No token is longer than what a fetch reads. -/
theorem TokenYields.encode_length_le {byteAt : Nat → Byte} {limit d e : Nat} {i : Instr}
    (h : TokenYields byteAt limit d i e) : (encode i).length ≤ Config.maxTokenBytes := by
  cases h with
  | literal _ hmax => rw [encode, List.length_cons, bytesFrom_length]; exact Nat.succ_le_succ hmax
  | backReference => exact (by decide : 2 ≤ Config.maxTokenBytes)

/-- A step of the Decoder runs the token whose encoding is left to read. -/
theorem decoderStep_of_bytes {s : State} {i : Instr} {rest : List Byte} (hi : i.wellFormed = true)
    (htok : i.isToken = true) (hlen : (encode i).length ≤ Config.maxTokenBytes)
    (hbytes : bytesFrom s.inByte s.dec.src (s.inLen - s.dec.src) = encode i ++ rest) :
    decoderStep s = exec i s := by
  rw [decoderStep, fetchBytes_eq_take, hbytes, List.take_append, List.take_of_length_le hlen,
    decodeToken_eq_instr_iff.2 (readsToken_encode hi htok _)]

/-- The bytes left after a token. -/
theorem bytesFrom_drop {byteAt : Nat → Byte} {a count : Nat} {head rest : List Byte}
    (h : bytesFrom byteAt a count = head ++ rest) :
    head.length ≤ count ∧ bytesFrom byteAt (a + head.length) (count - head.length) = rest := by
  have hlen : count = head.length + rest.length := by simpa using congrArg List.length h
  refine ⟨by omega, ?_⟩
  rw [hlen, bytesFrom_add] at h
  rw [hlen, Nat.add_sub_cancel_left]
  exact (List.append_inj h (bytesFrom_length _ _ _)).2

theorem Decodes.token {byteAt : Nat → Byte} {limit n : Nat} {i : Instr} {toks : List Instr} {s : State}
    (h : Decodes byteAt limit n (i :: toks) s) :
    ∃ t, blockStep s = .next t ∧ Decodes byteAt limit n toks t := by
  obtain ⟨hruns, hbytes, hyields, hroom, hout⟩ := h
  cases hyields with
  | cons hhead htail =>
    have htoken := hhead.inStream
    rw [List.flatMap_cons, List.append_assoc] at hbytes
    obtain ⟨hin, hrest⟩ := bytesFrom_drop hbytes
    have hpos := encode_length_pos i
    obtain ⟨t, hexec, hframe, hsrc, hdst, houtput⟩ := hhead.exec_appends (by omega) (htail.le.trans hroom) hout
    refine ⟨t, ?_, ?_, ?_, ?_, ?_, ?_⟩
    · rw [blockStep_decoding hruns,
        decoderStep_of_bytes htoken.wellFormed htoken.isToken hhead.encode_length_le hbytes, hexec]
    · rw [hframe]; exact hruns
    · rw [hframe.inputKept.inByte, hframe.inputKept.inLen, hsrc, Nat.sub_add_eq, hrest]
    · rwa [hdst]
    · rwa [hframe.params]
    · rwa [hdst]

theorem Decodes.terminator {byteAt : Nat → Byte} {limit n : Nat} {s : State} (h : Decodes byteAt limit n [] s) :
    ∃ t, blockStep s = .next t ∧ statusState t.status = .done ∧ t.output = bytesFrom byteAt 0 n := by
  obtain ⟨hruns, hbytes, hyields, hroom, hout⟩ := h
  have hend : s.dec.dst = n := by cases hyields; rfl
  refine ⟨completeOperation s.dec.dst s, ?_, by simp, ?_⟩
  · rw [blockStep_decoding hruns]
    exact decoderStep_of_bytes (i := .tokEnd) rfl rfl (by decide) hbytes
  · rw [output_eq_bytesFrom, completeOperation_outLen, completeOperation_outByte, hend]
    exact bytesFrom_congr fun a ha => hout (0 + a) (by omega)

/-- DECODE completes with the bytes the tokens stand for. -/
theorem Decodes.completes {byteAt : Nat → Byte} {limit n : Nat} {toks : List Instr} {s : State}
    (h : Decodes byteAt limit n toks s) :
    ∃ k t, runBlock k s = .next t ∧ statusState t.status = .done ∧ t.output = bytesFrom byteAt 0 n := by
  induction toks generalizing s with
  | nil =>
    obtain ⟨t, hstep, hdone⟩ := h.terminator
    exact ⟨1, t, by rw [runBlock_succ 0 hstep, runBlock_zero], hdone⟩
  | cons i toks ih =>
    obtain ⟨u, hstep, hu⟩ := h.token
    obtain ⟨k, t, hrun, hdone⟩ := ih hu
    exact ⟨k + 1, t, by rw [runBlock_succ k hstep, hrun], hdone⟩

/-- The command starts such a run when the input is the encoding of the tokens and END. -/
theorem decodeStarted_decodes {byteAt : Nat → Byte} {limit n : Nat} {toks : List Instr} {s : State}
    (hinput : s.input = toks.flatMap encode ++ [Config.terminator]) (hyields : TokensYield byteAt limit 0 toks n)
    (hroom : n ≤ s.params.outCap) : Decodes byteAt limit n toks (initAgent .decode (startOperation .decode s)) where
  runs := by simp [decoding_iff]
  bytes := by rw [← hinput, input_eq_bytesFrom]; rfl
  yields := hyields
  room := hroom
  output := fun _ ha => absurd ha (Nat.not_lt_zero _)

/-- Settles O44: ENCODE's output is the encoding of tokens that stand for the input, and DECODE appends those bytes. -/
theorem decodeOfEncodeYieldsInput : Obligations.DecodeOfEncodeYieldsInput := by
  unfold Obligations.DecodeOfEncodeYieldsInput
  intro s t s' h _ hcompletes _ hbusy hinput hin hout
  obtain ⟨toks, hyields, houtput⟩ := encode_output h hcompletes
  have hlen : s'.inLen ≤ s'.params.inCap := by
    have hsame : s'.inLen = t.outLen := by
      simpa [input_eq_bytesFrom, output_eq_bytesFrom] using congrArg List.length hinput
    rwa [hsame]
  obtain ⟨k, t', hrun, hdone, hbytes⟩ := (decodeStarted_decodes (hinput.trans houtput) hyields hout).completes
  exact ⟨t', ⟨_, k, execCommand_starts .decode hbusy hlen, hrun, hdone⟩,
    hbytes.trans (input_eq_bytesFrom s).symm⟩

end Sys2Proof.Machine

/-! SUPPORT. The Decoder (42_decoder.md R151 to R158): what each token does, the fetch of the token at `D.src`,
everything a step of a running Decoder can do with the bytes left to read, and the tokens a completed DECODE has read. -/

namespace Sys2Proof

/-! ## What bytes read as -/

/-- Bytes after a token do not change how it reads. -/
theorem ReadsToken.append {bytes : List Byte} {i : Instr} {rest : List Byte} (h : ReadsToken bytes i rest)
    (more : List Byte) : ReadsToken (bytes ++ more) i (rest ++ more) := by
  cases h with
  | tokEnd => exact .tokEnd _
  | tokLit h0 h7 hcount =>
    rw [List.cons_append, List.append_assoc]
    exact .tokLit h0 h7 hcount _
  | tokMatch h7 d => exact .tokMatch h7 d _

theorem decodeStream_of_tokEnd (fuel : Nat) {bytes rest : List Byte} (hread : ReadsToken bytes .tokEnd rest) :
    decodeStream (fuel + 1) bytes = some ([.tokEnd], rest) := by
  cases hread
  exact decodeStream_terminator fuel rest

/-- Every token but END has at least two bytes (R73). -/
theorem two_le_encode_length {i : Instr} (hwf : i.wellFormed = true) (htok : i.isToken = true) (hne : i ≠ .tokEnd) :
    2 ≤ (encode i).length := by
  cases i with
  | tokEnd => exact absurd rfl hne
  | tokLit payload =>
    simp only [Instr.wellFormed, Bool.and_eq_true, decide_eq_true_eq] at hwf
    exact Nat.succ_le_succ hwf.1
  | tokMatch m d => exact Nat.le_refl 2
  | cmdEncode | cmdDecode => cases htok

end Sys2Proof

namespace Sys2Proof.Machine

/-! ## END and LIT (42_decoder.md R152, R153) -/

/-- The bits outside `STATUS.STATE` keep their value when it is set. -/
theorem setStatusState_and_not_state (x : RunState) (w : Byte) : setStatusState x w &&& 0xFC#8 = w &&& 0xFC#8 := by
  cases x <;> revert w <;> decide

/-- Settles O19: END is the completion of the operation with `D.dst` bytes. -/
theorem endCompletesDecode : Obligations.EndCompletesDecode := by
  unfold Obligations.EndCompletesDecode
  exact fun s => ⟨completeOperation s.dec.dst s, rfl, rfl, statusState_setStatusState .done _,
    setStatusState_and_not_state .done _⟩

theorem literalCopied_sameOutputOutside (payload : List Byte) (s : State) :
    SameOutputOutside s.dec.dst (s.dec.dst + payload.length) s (literalCopied payload s) := by
  intro a ha
  rw [literalCopied_outByte, if_neg (by omega)]

/-- Settles O20: LIT leads to `literalCopied`, whose frame, registers and bytes of OUT are known. -/
theorem litCopiesPayload : Obligations.LitCopiesPayload := by
  unfold Obligations.LitCopiesPayload
  intro payload s hin hout
  refine ⟨_, execLit_copied hin hout, ?_, fun i hi => ?_, literalCopied_sameOutputOutside payload s⟩
  · rw [← literalCopied_dec]
    exact literalCopied_frame payload s
  · rw [literalCopied_outByte, if_pos (by omega), Nat.add_sub_cancel_left, List.getD_eq_getElem _ _ hi]

/-- Settles O21: the two errors are the first two branches of LIT. -/
theorem litErrorsInOrder : Obligations.LitErrorsInOrder := by
  unfold Obligations.LitErrorsInOrder
  exact fun payload s => ⟨fun htrunc => if_pos htrunc,
    fun hin hfull => (if_neg (Nat.not_le.2 hin)).trans (if_pos hfull)⟩

/-! ## MATCH (42_decoder.md R155, R156) -/

theorem matchOffset_neg_iff {dst : Nat} {d : Byte} : matchOffset dst d < 0 ↔ dst + d.toNat < 256 := by
  simp only [matchOffset, Config.window]
  omega

theorem matchOffset_eq_natCast {dst : Nat} {d : Byte} (h : 256 ≤ dst + d.toNat) :
    matchOffset dst d = (dst + d.toNat - 256 : Nat) := by
  simp only [matchOffset, Config.window]
  omega

/-- A MATCH whose source lies in the output reads the bytes from `off` on, `dist` of them over and over (R156): after
the first `dist` bytes, what it reads is what it wrote `dist` bytes before. -/
theorem matchCopied_periodic {m : BitVec 7} {d : Byte} {s : State} {o : Nat} (ho : matchOffset s.dec.dst d = o)
    (i : Nat) (hi : i < matchLength m) :
    (matchCopied m d s).outByte (s.dec.dst + i) = s.outByte (o + i % matchDistance d) := by
  have hdist := matchOffset_eq s.dec.dst d
  have hpos := (matchDistance_bounds d).1
  induction i using Nat.strongRecOn with
  | ind i ih =>
    rw [matchCopied_inside m d s ho hi]
    rcases Nat.lt_or_ge i (matchDistance d) with hfirst | hagain
    · rw [matchCopied_outside m d s _ (.inl (by omega)), Nat.mod_eq_of_lt hfirst]
    · rw [show o + i = s.dec.dst + (i - matchDistance d) by omega, ih _ (by omega) (by omega),
        ← Nat.mod_eq_sub_mod hagain]

/-- Settles O22: MATCH leads to `matchCopied`, whose copy repeats the bytes before `D.dst`. -/
theorem matchRepeatsEarlierOutput : Obligations.MatchRepeatsEarlierOutput := by
  unfold Obligations.MatchRepeatsEarlierOutput
  intro m d s hin hoff hout
  have hsource := matchOffset_eq_natCast hoff
  refine ⟨_, execMatch_copied hin (by omega) hout, ?_, fun i hi => ?_, matchCopied_outside m d s⟩
  · have hframe := matchCopied_frame m d s
    rwa [DecoderFrame, matchCopied_dec] at hframe
  · exact matchCopied_periodic hsource i hi

/-- Settles O23: the three errors are the first three branches of MATCH. -/
theorem matchErrorsInOrder : Obligations.MatchErrorsInOrder := by
  unfold Obligations.MatchErrorsInOrder
  refine fun m d s => ⟨fun htrunc => if_pos htrunc,
    fun hin hoff => (if_neg (Nat.not_le.2 hin)).trans (if_pos (matchOffset_neg_iff.2 hoff)),
    fun hin hoff hfull => (if_neg (Nat.not_le.2 hin)).trans ((if_neg ?_).trans (if_pos hfull))⟩
  exact fun hneg => absurd (matchOffset_neg_iff.1 hneg) (Nat.not_lt.2 hoff)

/-! ## The fetch (42_decoder.md R151, R154) -/

theorem decoderStep_of_instr {s : State} {i : Instr} {rest : List Byte}
    (h : decodeToken (fetchBytes s) = .instr i rest) : decoderStep s = exec i s := by
  rw [decoderStep, h]

theorem decoderStep_of_rejected {s : State} {why : Reject} (h : decodeToken (fetchBytes s) = .rejected why) :
    decoderStep s = .next (takeError (rejectCause why) s.dec.src s) := by
  rw [decoderStep, h]

/-- With no action of the host pending, a step of a running Decoder is one iteration of its loop. -/
theorem step_decoding {s : State} (hhost : s.host = []) (hruns : s.decoding = true) : step s = decoderStep s := by
  rw [step, machineStep, hhost]
  exact blockStep_decoding hruns

/-- Settles O11: the step is the Decoder's, which runs the token it has decoded. -/
theorem stepRunsDecodedToken : Obligations.StepRunsDecodedToken := by
  unfold Obligations.StepRunsDecodedToken
  exact fun s i rest hhost hruns hdecode => (step_decoding hhost hruns).trans (decoderStep_of_instr hdecode)

/-- How many bytes are fetched after the header: those before `n`, at most as many as the longest payload. -/
def fetchedOperands (s : State) : Nat := min (s.inLen - (s.dec.src + 1)) Config.litMax

theorem fetchBytes_eq_header_operands {s : State} (h : s.dec.src < s.inLen) :
    fetchBytes s = s.inByte s.dec.src :: bytesFrom s.inByte (s.dec.src + 1) (fetchedOperands s) := by
  have hcount : min (s.inLen - s.dec.src) Config.maxTokenBytes - 1 = fetchedOperands s := by
    simp only [fetchedOperands, Config.maxTokenBytes, Config.litMax]
    omega
  rw [fetchBytes_eq_cons h, hcount, bytesFrom, List.range'_eq_map_range, List.map_map]
  rfl

theorem bytesFrom_take (byteAt : Nat → Byte) (a : Nat) {count n : Nat} (h : count ≤ n) :
    (bytesFrom byteAt a n).take count = bytesFrom byteAt a count := by
  rw [bytesFrom, ← List.map_take, List.take_range, Nat.min_eq_left h, bytesFrom]

section
variable {s : State} (hsrc : s.dec.src < s.inLen)
include hsrc

theorem decoderStep_terminator (h0 : s.inByte s.dec.src = 0x00#8) : decoderStep s = exec .tokEnd s := by
  refine decoderStep_of_instr (rest := bytesFrom s.inByte (s.dec.src + 1) (fetchedOperands s)) ?_
  rw [fetchBytes_eq_header_operands hsrc, h0]
  exact decodeToken_terminator _

theorem decoderStep_literal (h0 : s.inByte s.dec.src ≠ 0x00#8) (h7 : headerBit7 (s.inByte s.dec.src) = false)
    (hin : s.dec.src + (headerField (s.inByte s.dec.src)).toNat < s.inLen) :
    decoderStep s =
      exec (.tokLit (s.inBytes (s.dec.src + 1) (headerField (s.inByte s.dec.src)).toNat)) s := by
  have hmax := (litHeader_headerField h0 h7).2.2
  have hcount : (headerField (s.inByte s.dec.src)).toNat ≤ fetchedOperands s := by
    simp only [fetchedOperands]
    omega
  have hdecode := decodeToken_lit h0 h7 (hcount.trans_eq (bytesFrom_length s.inByte (s.dec.src + 1) _).symm)
  rw [← fetchBytes_eq_header_operands hsrc, bytesFrom_take _ _ hcount] at hdecode
  exact decoderStep_of_instr hdecode

theorem decoderStep_truncatedLiteral (h0 : s.inByte s.dec.src ≠ 0x00#8)
    (h7 : headerBit7 (s.inByte s.dec.src) = false)
    (hpast : s.inLen ≤ s.dec.src + (headerField (s.inByte s.dec.src)).toNat) :
    decoderStep s = .next (takeError .truncatedLiteral s.dec.src s) := by
  refine decoderStep_of_rejected (why := .truncatedLiteral) ?_
  rw [fetchBytes_eq_header_operands hsrc]
  refine decodeToken_truncatedLiteral h0 h7 ?_
  rw [bytesFrom_length, fetchedOperands]
  omega

theorem decoderStep_match (h7 : headerBit7 (s.inByte s.dec.src) = true) (hin : s.dec.src + 1 < s.inLen) :
    decoderStep s = exec (.tokMatch (headerField (s.inByte s.dec.src)) (s.inByte (s.dec.src + 1))) s := by
  have hcount : 1 ≤ fetchedOperands s := by
    simp only [fetchedOperands, Config.litMax]
    omega
  refine decoderStep_of_instr (rest := bytesFrom s.inByte (s.dec.src + 2) (fetchedOperands s - 1)) ?_
  rw [fetchBytes_eq_header_operands hsrc, ← Nat.add_sub_cancel' hcount, bytesFrom_add, Nat.add_sub_cancel_left]
  exact decodeToken_match h7 _ _

theorem decoderStep_truncatedMatch (h7 : headerBit7 (s.inByte s.dec.src) = true)
    (hpast : s.inLen ≤ s.dec.src + 1) : decoderStep s = .next (takeError .truncatedMatch s.dec.src s) := by
  refine decoderStep_of_rejected (why := .truncatedMatch) ?_
  rw [fetchBytes_eq_header_operands hsrc, fetchedOperands, Nat.sub_eq_zero_of_le hpast, Nat.zero_min]
  exact decodeToken_truncatedMatch h7

end

/-- Settles O12: one case of the Decoder's step for each form of the bytes at `D.src`. -/
theorem decoderLoopInterpretsHeader : Obligations.DecoderLoopInterpretsHeader := by
  unfold Obligations.DecoderLoopInterpretsHeader
  intro s hhost hruns
  rw [step_decoding hhost hruns]
  exact ⟨fun hsrc => decoderStep_of_rejected (why := .missingTerminator) (by rw [fetchBytes_eq_nil hsrc]; rfl),
    decoderStep_terminator,
    fun hsrc h0 h7 => ⟨decoderStep_literal hsrc h0 h7, decoderStep_truncatedLiteral hsrc h0 h7⟩,
    fun hsrc h7 => ⟨decoderStep_match hsrc h7, decoderStep_truncatedMatch hsrc h7⟩⟩

/-! ## A step of a running Decoder (42_decoder.md R151, R157) -/

/-- The bytes of the input from `D.src` on. -/
def unread (s : State) : List Byte := bytesFrom s.inByte s.dec.src (s.inLen - s.dec.src)

/-- `t` has read the bytes of `i` and output as many bytes as it adds, and changed nothing but `D.*` and OUT. -/
structure Advances (i : Instr) (s t : State) : Prop where
  frame : DecoderFrame s t
  src : t.dec.src = s.dec.src + (encode i).length
  dst : t.dec.dst = s.dec.dst + outputLength i
  outside : SameOutputOutside s.dec.dst (s.dec.dst + outputLength i) s t

theorem literalCopied_advances (payload : List Byte) (s : State) :
    Advances (.tokLit payload) s (literalCopied payload s) where
  frame := literalCopied_frame payload s
  src := by rw [literalCopied_dec, encode, List.length_cons, ← Nat.add_assoc, Nat.add_right_comm]
  dst := by rw [literalCopied_dec]; rfl
  outside := literalCopied_sameOutputOutside payload s

theorem matchCopied_advances (m : BitVec 7) (d : Byte) (s : State) :
    Advances (.tokMatch m d) s (matchCopied m d s) where
  frame := matchCopied_frame m d s
  src := by rw [matchCopied_dec]; rfl
  dst := by rw [matchCopied_dec]; rfl
  outside := matchCopied_outside m d s

/-- Every way the Decoder can move, with the token it has read. -/
inductive DecoderTurn (s : State) : State → Prop
  | fails (c : Cause) : DecoderTurn s (takeError c s.dec.src s)
  | completes {rest : List Byte} (hread : ReadsToken (unread s) .tokEnd rest) :
      DecoderTurn s (completeOperation s.dec.dst s)
  | advances {i : Instr} {rest : List Byte} {t : State} (hread : ReadsToken (unread s) i rest) (hne : i ≠ .tokEnd)
      (hadv : Advances i s t) : DecoderTurn s t

/-- A token that is fetched stands at the head of all the bytes left to read. -/
theorem readsToken_unread_of_fetch {s : State} {i : Instr} {rest : List Byte}
    (h : decodeToken (fetchBytes s) = .instr i rest) : ∃ rest, ReadsToken (unread s) i rest := by
  have hread := (decodeToken_eq_instr_iff.1 h).append ((unread s).drop Config.maxTokenBytes)
  rw [fetchBytes_eq_take, ← unread, List.take_append_drop] at hread
  exact ⟨_, hread⟩

theorem exec_turn {s t : State} {i : Instr} {rest : List Byte} (hread : ReadsToken (unread s) i rest)
    (h : exec i s = .next t) : DecoderTurn s t := by
  cases i with
  | tokEnd => cases h; exact .completes hread
  | tokLit payload =>
    rcases execLit_cases payload s with ⟨c, -, e⟩ | ⟨e, -⟩ <;> cases e.symm.trans h
    · exact .fails c
    · exact .advances hread nofun (literalCopied_advances payload s)
  | tokMatch m d =>
    rcases execMatch_cases m d s with ⟨c, -, e⟩ | ⟨e, -⟩ <;> cases e.symm.trans h
    · exact .fails c
    · exact .advances hread nofun (matchCopied_advances m d s)
  | cmdEncode | cmdDecode => nomatch hread.encode_append.2.1

theorem decoderStep_turn {s t : State} (h : decoderStep s = .next t) : DecoderTurn s t := by
  unfold decoderStep at h
  split at h
  · obtain ⟨rest, hread⟩ := readsToken_unread_of_fetch ‹_›
    exact exec_turn hread h
  · cases h; exact .fails _

theorem Advances.decoding {i : Instr} {s t : State} (h : Advances i s t) (hruns : s.decoding = true) :
    t.decoding = true := by
  rw [h.frame]; exact hruns

/-- Settles O37: a token that is neither END nor an error has at least two bytes, and writes between the two values of
`D.dst`. -/
theorem decoderStepAdvancesOrEnds : Obligations.DecoderStepAdvancesOrEnds := by
  unfold Obligations.DecoderStepAdvancesOrEnds
  intro s t hruns h
  rw [blockStep_decoding hruns] at h
  cases decoderStep_turn h with
  | fails c => exact .inl (takeError_fields s c s.dec.src).1
  | completes =>
    exact .inr ⟨.inl ⟨statusState_setStatusState .done _, rfl⟩, Nat.le_refl _, fun _ _ => rfl⟩
  | advances hread hne hadv =>
    obtain ⟨hwf, htok, -⟩ := hread.encode_append
    have hlen := two_le_encode_length hwf htok hne
    refine .inr ⟨.inr ⟨hadv.decoding hruns, ?_⟩, ?_, ?_⟩
    · rw [hadv.src]; omega
    · rw [hadv.dst]; omega
    · rw [hadv.dst]; exact hadv.outside

/-! ## A run of the Decoder (42_decoder.md R158) -/

/-- What is left to read after a token. -/
theorem Advances.unread {i : Instr} {rest : List Byte} {s t : State} (h : Advances i s t)
    (hread : ReadsToken (unread s) i rest) :
    unread t = rest ∧ t.inLen - t.dec.src < s.inLen - s.dec.src := by
  obtain ⟨hin, hrest⟩ := bytesFrom_drop hread.encode_append.2.2.symm
  have hpos := encode_length_pos i
  rw [Machine.unread, h.frame.inputKept.inByte, h.frame.inputKept.inLen, h.src, Nat.sub_add_eq]
  exact ⟨hrest, by omega⟩

/-- A running Decoder that completes reads what is left as tokens up to END, and outputs the bytes they add. -/
theorem decodeStream_of_run {s t : State} {k fuel : Nat} (hruns : s.decoding = true)
    (hrun : runBlock k s = .next t) (hdone : statusState t.status = .done) (hfuel : s.inLen - s.dec.src < fuel) :
    ∃ tokens rest, decodeStream fuel (unread s) = some (tokens, rest) ∧
      t.outLen = s.dec.dst + (tokens.map outputLength).sum := by
  induction k generalizing s fuel with
  | zero =>
    cases hrun
    exact nomatch (Inv.busy_of_decoding hruns).symm.trans hdone
  | succ k ih =>
    obtain ⟨fuel, rfl⟩ : ∃ n, fuel = n + 1 := ⟨fuel - 1, by omega⟩
    obtain ⟨u, hstep, hrun⟩ := runBlock_succ_cases hrun
    rw [blockStep_decoding hruns] at hstep
    cases decoderStep_turn hstep with
    | fails c =>
      rw [runBlock_not_busy (takeError_busy s c s.dec.src)] at hrun
      cases hrun
      exact nomatch (takeError_fields s c s.dec.src).1.symm.trans hdone
    | completes hread =>
      rw [runBlock_not_busy (completeOperation_busy s s.dec.dst)] at hrun
      cases hrun
      exact ⟨_, _, decodeStream_of_tokEnd fuel hread, rfl⟩
    | @advances i _ _ hread hne hadv =>
      obtain ⟨hunread, hless⟩ := hadv.unread hread
      obtain ⟨tokens, rest, hstream, hlen⟩ := ih (fuel := fuel) (hadv.decoding hruns) hrun (by omega)
      refine ⟨i :: tokens, rest, ?_, ?_⟩
      · rw [decodeStream_token hread hne, ← hunread, hstream]; rfl
      · rw [hlen, hadv.dst, List.map_cons, List.sum_cons, Nat.add_assoc]

/-- Settles O47: DECODE starts with the whole input unread and no output, or fails at once. -/
theorem decodedLengthIsSumOfTokens : Obligations.DecodedLengthIsSumOfTokens := by
  unfold Obligations.DecodedLengthIsSumOfTokens
  rintro s t - - ⟨u, k, hexec, hrun, hdone⟩
  rw [exec_cmdDecode] at hexec
  obtain ⟨-, rfl | rfl⟩ := execCommand_cases hexec
  · obtain ⟨tokens, rest, hstream, hlen⟩ :=
      decodeStream_of_run (by simp [decoding_iff]) hrun hdone (Nat.lt_succ_self _)
    refine ⟨tokens, rest, ?_, hlen.trans (Nat.zero_add _)⟩
    rw [input_eq_bytesFrom]
    exact hstream
  · rw [runBlock_not_busy (takeError_busy _ _ _)] at hrun
    cases hrun
    exact nomatch (takeError_fields _ _ _).1.symm.trans hdone

end Sys2Proof.Machine

/-! SUPPORT. What an error records (60_exceptions.md R184), and the host's actions that have no meaning (R187). -/

namespace Sys2Proof.Machine

/-! ## Taking an error (60_exceptions.md R184) -/

/-- OP and the reserved bits keep their value when STATE is written. -/
theorem opAndReserved_setStatusState (x : RunState) (w : Byte) : setStatusState x w &&& 0x8C#8 = w &&& 0x8C#8 := by
  cases x <;> revert w <;> decide

/-- OP and the reserved bits keep their value when CAUSE is written. -/
theorem opAndReserved_setStatusCause (c : Cause) (w : Byte) : setStatusCause c w &&& 0x8C#8 = w &&& 0x8C#8 := by
  cases c <;> revert w <;> decide

/-- Settles O24: an error writes STATE and CAUSE, and both updates keep OP and the reserved bits. -/
theorem errorRecordsCauseAndPosition : Obligations.ErrorRecordsCauseAndPosition := by
  unfold Obligations.ErrorRecordsCauseAndPosition
  intro c pos s
  obtain ⟨hstate, hcause, -⟩ := takeError_fields s c pos
  refine ⟨rfl, hcause, hstate, ?_, rfl⟩
  rw [takeError_status, opAndReserved_setStatusState, opAndReserved_setStatusCause]

/-! ## The host's actions that have no meaning (60_exceptions.md R187) -/

theorem hostWriteReg_readOnly {r : HostReg} (hcmd : r ≠ .cmd) (hlen : r ≠ .inLen) (v : Nat) (s : State) :
    hostWriteReg r v s = .refused .readOnlyRegister := by
  cases r with
  | cmd => exact absurd rfl hcmd
  | inLen => exact absurd rfl hlen
  | status | outLen | errSrc | inCapR | outCapR => rfl

section
variable {s : State} (hbusy : s.busy = true)
include hbusy

theorem hostWriteInLen_busy (v : Nat) : hostWriteInLen v s = .refused .writeWhileBusy := by
  simp [hostWriteInLen, hbusy]

theorem hostWriteIn_busy (a : Nat) (v : Byte) : hostWriteIn a v s = .refused .writeWhileBusy := by
  simp [hostWriteIn, hbusy]

theorem hostWriteOut_busy (a : Nat) (v : Byte) : hostWriteOut a v s = .refused .writeWhileBusy := by
  simp [hostWriteOut, hbusy]

theorem hostReadOut_busy (a : Nat) : hostReadOut a s = .refused .readOutWhileBusy := by
  simp [hostReadOut, hbusy]

/-- A write of `CMD` that stands for a command runs it, and both commands are refused while BUSY. -/
theorem step_command_busy {v : Byte} {rest : List HostAction} (hv : v ≤ 0x01#8)
    (hhost : s.host = .writeReg .cmd v.toNat :: rest) : step s = .refused .commandWhileBusy := by
  obtain ⟨hencode, hdecode, -⟩ := stepRunsCommandWrittenToCmd s v rest hhost
  obtain ⟨hrefEncode, hrefDecode⟩ := commandsRefusedWhileBusy { s with host := rest } hbusy
  obtain rfl | rfl : v = 0x00#8 ∨ v = 0x01#8 := by bv_omega
  · exact (hencode rfl).trans hrefEncode
  · exact (hdecode rfl).trans hrefDecode

end

/-- Settles O48: the step takes the host's action, and the action is refused by its own test. -/
theorem meaninglessHostActionsRefused : Obligations.MeaninglessHostActionsRefused := by
  unfold Obligations.MeaninglessHostActionsRefused
  intro s rest
  have hwithHost := withHost_busy s rest
  refine ⟨fun hbusy _ hv hhost => step_command_busy hbusy hv hhost,
    fun v hv hhost => (stepRunsCommandWrittenToCmd s v rest hhost).2.2 hv,
    fun r v hcmd hlen hhost => ?readOnly, fun hbusy v hhost => ?inLen, fun hbusy a v hhost => ?writeIn,
    fun hbusy a v hhost => ?writeOut, fun hbusy a hhost => ?readOut⟩
  case readOnly => exact (step_hostAct hhost nofun).trans (hostWriteReg_readOnly hcmd hlen v _)
  case inLen => exact (step_hostAct hhost nofun).trans (hostWriteInLen_busy (hwithHost.trans hbusy) v)
  case writeIn => exact (step_hostAct hhost nofun).trans (hostWriteIn_busy (hwithHost.trans hbusy) a v)
  case writeOut => exact (step_hostAct hhost nofun).trans (hostWriteOut_busy (hwithHost.trans hbusy) a v)
  case readOut => exact (step_hostAct hhost nofun).trans (hostReadOut_busy (hwithHost.trans hbusy) a)

end Sys2Proof.Machine

/-! SUPPORT. Reset (70_reset_and_hazards.md R200, R201), the block at rest (R202), and that every operation ends
(R209). -/

namespace Sys2Proof.Machine

/-! ## Reset (70_reset_and_hazards.md R200, R201) -/

/-- Settles O1: each host register of `State.resetWith` is 0 or a parameter, and both memories are empty. -/
theorem resetGivesHostRegistersTheirValues : Obligations.ResetGivesHostRegistersTheirValues := by
  unfold Obligations.ResetGivesHostRegistersTheirValues
  exact fun p => ⟨rfl, rfl, (by decide : statusOp 0x00#8 = .encode), (by decide : statusCause 0x00#8 = 0),
    rfl, rfl, rfl, rfl, rfl, fun _ => ⟨rfl, rfl⟩⟩

/-- Settles O52: a reset is taken whatever the block is doing, and `hostReset` is a state after reset but for the agent
registers and what belongs to the host. -/
theorem hostResetReinitialises : Obligations.HostResetReinitialises := by
  unfold Obligations.HostResetReinitialises
  intro s rest hhost
  have hstep : step s = .next (hostReset { s with host := rest }) := step_hostAct hhost nofun
  exact ⟨_, hstep, rfl, rfl, rfl, rfl, rfl, rfl, rfl, rfl, rfl⟩

/-! ## The block at rest (70_reset_and_hazards.md R202) -/

/-- With no pending action a step of the machine is a step of the block. -/
theorem step_of_host_nil {s : State} (hhost : s.host = []) : step s = blockStep s := by
  simp [step, machineStep, hhost]

/-- Settles O3: with nothing pending the block moves, and while not BUSY it stays as it is. -/
theorem nothingHappensUntilHostActs : Obligations.NothingHappensUntilHostActs := by
  unfold Obligations.NothingHappensUntilHostActs
  intro s hhost hstate
  rw [step_of_host_nil hhost, blockStep_not_busy (Bool.eq_false_of_not_eq_true (mt (busy_iff s).1 hstate))]

/-! ## Every operation ends (70_reset_and_hazards.md R209) -/

/-- How many bytes of the input the running agent has still to go through. -/
def inputLeft (s : State) : Nat := s.inLen - if s.encoding then s.enc.dst else s.dec.src

theorem inputLeft_le (s : State) : inputLeft s ≤ s.inLen := Nat.sub_le _ _

theorem inputLeft_encoding {s : State} (h : s.encoding = true) : inputLeft s = s.inLen - s.enc.dst := by
  rw [inputLeft, if_pos h]

theorem inputLeft_decoding {s : State} (h : s.decoding = true) : inputLeft s = s.inLen - s.dec.src := by
  have hbusy : s.busy = true := (busy_iff s).2 ((decoding_iff s).1 h).1
  rcases busy_cases hbusy with ⟨-, hdec⟩ | ⟨henc, -⟩
  · exact nomatch h.symm.trans hdec
  · rw [inputLeft, henc]; rfl

/-- The step from `s` to `t` ends the operation, or leaves less of the input. -/
def EndsOrLeavesLess (s t : State) : Prop := t.ended ∨ t.busy = true ∧ inputLeft t < inputLeft s

theorem encoder_endsOrLeavesLess {s t : State} (h : Inv s) (henc : s.encoding = true) (hstep : blockStep s = .next t) :
    EndsOrLeavesLess s t := by
  obtain ⟨u, hu, hmove⟩ := encoderStepAdvancesOrEnds s h henc
  cases hu.symm.trans hstep
  rcases hmove with ⟨ht, hless, hin, -⟩ | ⟨hdone, -⟩ | ⟨herror, -⟩
  · refine .inr ⟨(busy_iff t).2 ((encoding_iff t).1 ht).1, ?_⟩
    rw [inputLeft_encoding ht, inputLeft_encoding henc, (blockStep_inputKept hstep).inLen]
    omega
  · exact .inl (.inl hdone)
  · exact .inl (.inr herror)

/-- The invariant of the state after the step has `D.src` within the input, so the advance is towards its end. -/
theorem decoder_endsOrLeavesLess {s t : State} (hdec : s.decoding = true) (hstep : blockStep s = .next t) (h : Inv t) :
    EndsOrLeavesLess s t := by
  rcases decoderStepAdvancesOrEnds s t hdec hstep with herror | ⟨⟨hdone, -⟩ | ⟨ht, hsrc⟩, -⟩
  · exact .inl (.inr herror)
  · exact .inl (.inl hdone)
  · refine .inr ⟨(busy_iff t).2 ((decoding_iff t).1 ht).1, ?_⟩
    have hin := (h.decoder ht).src
    have hkept := (blockStep_inputKept hstep).inLen
    rw [inputLeft_decoding ht, inputLeft_decoding hdec]
    omega

theorem State.ended.not_busy {s : State} (h : s.ended) : s.busy = false := by
  rcases h with h | h <;> simp [State.busy, h]

/-- An operation runs, or one has ended, in a state that meets the invariant. -/
structure RunsOrEnded (s : State) : Prop where
  inv : Inv s
  state : s.busy = true ∨ s.ended

/-- A step of a BUSY block ends the operation or leaves less of the input. -/
theorem RunsOrEnded.blockStep {s : State} (h : RunsOrEnded s) (hbusy : s.busy = true) :
    ∃ t, blockStep s = .next t ∧ RunsOrEnded t ∧ (t.busy = true → inputLeft t < inputLeft s) := by
  obtain ⟨t, hstep, ht⟩ := blockStep_inv h.inv
  have hmove : EndsOrLeavesLess s t := by
    rcases busy_cases hbusy with ⟨henc, -⟩ | ⟨-, hdec⟩
    · exact encoder_endsOrLeavesLess h.inv henc hstep
    · exact decoder_endsOrLeavesLess hdec hstep ht
  rcases hmove with hended | ⟨hruns, hless⟩
  · exact ⟨t, hstep, ⟨ht, .inr hended⟩, fun hruns => nomatch hended.not_busy.symm.trans hruns⟩
  · exact ⟨t, hstep, ⟨ht, .inl hruns⟩, fun _ => hless⟩

/-- Settles O38: the input left falls with every step that leaves the block BUSY, from at most `IN_LEN`. -/
theorem everyOperationEnds : Obligations.EveryOperationEnds := by
  unfold Obligations.EveryOperationEnds
  intro s h hbusy
  obtain ⟨k, t, hk, hrun, ht, hidle⟩ := runBlock_ends inputLeft (fun _ => RunsOrEnded.blockStep) ⟨h, .inl hbusy⟩
  have hended : t.ended := ht.state.resolve_left (Bool.eq_false_iff.1 hidle)
  exact ⟨k, t, hk.trans (Nat.succ_le_succ (inputLeft_le s)), hrun, hended⟩

end Sys2Proof.Machine

/-! SUPPORT. The invariant at reset (70_reset_and_hazards.md R200, R201). -/

namespace Sys2Proof.Machine

/-- Every register after reset is 0, closed or ⊥, and each width holds a 0. -/
theorem resetWith_widths (p : Config.Params) : Widths (State.resetWith p) :=
  have hzero : 0 < 2 ^ p.cursorBits := Nat.two_pow_pos p.cursorBits
  have hzeroInt : (0 : Int) < 2 ^ p.cursorBits := Int.pow_pos (by decide)
  { inLen := hzero, outLen := hzero, errSrc := hzero
    encDst := hzero, encRunLen := Nat.two_pow_pos 7, encHdr := nofun, encOlen := hzero
    fndD := hzero, fndLim := Nat.two_pow_pos 8, fndS := hzero, fndNum := Nat.two_pow_pos 8
    fndBestLen := Nat.two_pow_pos 8, fndBestSrc := nofun
    decSrc := hzero, decDst := hzero, decOffLow := Int.neg_nonpos_of_nonneg hzeroInt.le, decOffHigh := hzeroInt
    decCnt := Nat.two_pow_pos 8 }

/-- Power-on is event 0, and the next event that leaves a memory unspecified is number 1 (log entry 6). -/
theorem resetWith_memories (p : Config.Params) : MemoriesOk (State.resetWith p) where
  inWf := nil_wf
  outWf := nil_wf
  inBound := nofun
  outBound := nofun
  inEpoch := Nat.zero_lt_one
  outEpoch := Nat.zero_lt_one

theorem resetWith_not_busy (p : Config.Params) : (State.resetWith p).busy = false :=
  (by decide : decide (statusState 0x00#8 = .busy) = false)

/-- The reset state meets the invariant for all parameters the spec's rules allow, not only for the model's own. -/
theorem resetWith_inv {p : Config.Params} (hp : p.wf) : Inv (State.resetWith p) :=
  .of_not_busy (resetWith_not_busy p) hp (by decide : StatusOk 0x00#8) (resetWith_widths p) (resetWith_memories p)
    fun hdone => absurd hdone (by decide : statusState 0x00#8 ≠ .done)

theorem defaultParams_wf : Config.defaultParams.wf := by decide

/-- Settles O2: `State.reset` is the reset state of the model's own parameters, which the spec's rules allow. -/
theorem resetMeetsInvariant : Obligations.ResetMeetsInvariant := by
  unfold Obligations.ResetMeetsInvariant
  exact resetWith_inv defaultParams_wf

end Sys2Proof.Machine
